-- ==== Sys2Proof/Word.lean ====
section
/-! DEFINITION. The bit-level words of the Format Codec: symbols, bit strings, the 2-bit format
code, the 64-bit value carrier. Spec: `00_scope.md` R12, R13; `30_encoding.md` R62, R66, R73. -/

namespace Sys2Proof

/-- R66: a symbol is one bit; `false` is symbol 0, `true` is symbol 1. No third symbol exists. -/
abbrev Symbol := Bool

/-- R13: a bit string, a finite sequence of symbols; the head is the first symbol, `bs[0]`. -/
abbrev BitString := List Symbol

/-- R62: the `fmt` field of a header, `hdr[1:0]`. -/
abbrev FmtCode := BitVec 2

/-- R73: one 64-bit pattern on the value port `val_in` or `val_out`. -/
abbrev Carrier := BitVec 64

end Sys2Proof
end

