-- ==== Sys2Proof/Syntax.lean ====
section
/-! DEFINITION. The syntax: formats, values, and one constructor of `Instr` for each of the eight
rows of the opcode table. Spec: `00_scope.md` R14, R16; `30_encoding.md` R61 to R65, R69, R78. -/

namespace Sys2Proof

/-- R92: the closed set of formats, in the order DOC00 lists them (R63). -/
inductive Format where
  | half
  | bfloat
  | single
deriving DecidableEq, Repr

/-- R14: the values an operation takes or returns. Equality is structural: `nan` equals `nan`,
`zero false` (+0) differs from `zero true` (-0). `fin q` is meant for `q ≠ 0` only; `Val.wf`
(`WellFormed.lean`) says so. -/
inductive Val where
  /-- `Zero(s)`: signed zero. -/
  | zero (s : Symbol)
  /-- `Fin(q)`: a finite non-zero number, held exactly. -/
  | fin (q : Rat)
  /-- `Inf(s)`: signed infinity. -/
  | inf (s : Symbol)
  /-- `NaN`: one value, no sign, no payload. -/
  | nan
deriving DecidableEq, Repr

/-- R69: one constructor per header value. The operand of an E-format command is the value that
`val_in` carries (R64); the operand of a D-format command is the frame `bs_in` (R65), whose length
is the length of the list, any length being a legal operand. -/
inductive Instr where
  /-- `000` ENCODE.HALF, R121. -/
  | encodeHalf (v : Val)
  /-- `001` ENCODE.BFLOAT, R123. -/
  | encodeBfloat (v : Val)
  /-- `010` ENCODE.SINGLE, R122. -/
  | encodeSingle (v : Val)
  /-- `011` ENCODE.RSVD3, R129. -/
  | encodeRsvd3 (v : Val)
  /-- `100` DECODE.HALF, R171. -/
  | decodeHalf (bs : BitString)
  /-- `101` DECODE.BFLOAT, R172. -/
  | decodeBfloat (bs : BitString)
  /-- `110` DECODE.SINGLE, R173. -/
  | decodeSingle (bs : BitString)
  /-- `111` DECODE.RSVD3, R182. -/
  | decodeRsvd3 (bs : BitString)
deriving DecidableEq, Repr

/-- R78: the call `encode(value, format)` is a synonym of the dotted mnemonics; an unrecognised
identifier (`none`) is `fmt = 3`. -/
def Instr.encodeOf : Option Format → Val → Instr
  | some .half, v => .encodeHalf v
  | some .bfloat, v => .encodeBfloat v
  | some .single, v => .encodeSingle v
  | none, v => .encodeRsvd3 v

/-- R78: the call `decode(bit_string, format)`; an unrecognised identifier is `none`. -/
def Instr.decodeOf : Option Format → BitString → Instr
  | some .half, bs => .decodeHalf bs
  | some .bfloat, bs => .decodeBfloat bs
  | some .single, bs => .decodeSingle bs
  | none, bs => .decodeRsvd3 bs

/-- Why a sequence of bits on the link is not a command (R61, R77: the header is always 3 bits, an
E-format payload always 64; log entry 1). -/
inductive Reject where
  /-- Fewer than the three header bits arrived; `present` is how many. -/
  | headerIncomplete (present : Nat)
  /-- `op = 0`, but the payload is not 64 bits long; `present` is its length. -/
  | valueLength (present : Nat)
deriving DecidableEq, Repr

end Sys2Proof
end

