-- ==== Sys2Proof/Config.lean ====
section
/-! DEFINITION. What is fixed for one implementation: the record type of the format descriptors,
and the three parameters the spec leaves open. Spec: `00_scope.md` R10, R11; `10_state.md` R24;
`42_int_to_fp_encoder.md` R127; `30_encoding.md` R74. -/

namespace Sys2Proof

/-- R24: a `FormatSpec`, "immutable descriptor of a floating-point layout". The three descriptors
of the hardware are `Machine.fs` (`Machine/FormatSelector.lean`). -/
structure FormatSpec where
  name : Format
  totalBits : Nat
  signBits : Nat
  exponentBits : Nat
  mantissaBits : Nat
  bias : Nat
deriving DecidableEq, Repr

/-- R127, U1, U2: the free value behind `NAN_ENC(half)`. It has no body: nothing is known of it.
`Machine.nanEncHalf` turns it into an admissible pattern (log entry 2). -/
opaque Config.nanHalfFree : BitVec 16

/-- R127, U1, U2: the free value behind `NAN_ENC(single)`; see `Machine.nanEncSingle`
(log entry 2). -/
opaque Config.nanSingleFree : BitVec 32

/-- R74, U3: the free value behind `NAN64_OUT`; see `Machine.nan64Out` (log entry 3). -/
opaque Config.nan64Free : Carrier

end Sys2Proof
end

