-- ==== Sys2Proof/Machine/Operands.lean ====
section
/-! DEFINITION. The two operand spaces of a transaction: exact powers of two, bit strings
(serialiser and deserialiser), the five-case reading of a pattern's fields, and the binary64 value
carrier. Spec: `00_scope.md` R12 to R15; `20_memory.md` R41, R42; `30_encoding.md` R71 to R75;
`43_bit_serializer.md`; `44_bit_deserializer.md` R161; `45_fp_to_int_decoder.md` R174 to R178. -/

namespace Sys2Proof.Machine

/-- R12: `2^k`, exact, for any integer `k`. -/
def pow2 : Int → Rat
  | .ofNat n => ((2 ^ n : Nat) : Rat)
  | .negSucc n => 1 / ((2 ^ (n + 1) : Nat) : Rat)

/-- R14: `sign(Fin(q))`, 0 when `q > 0` and 1 when `q < 0`. -/
def signOf (q : Rat) : Symbol := decide (q < 0)

/-- The `|q|` of R124 and R74. -/
def magnitude (q : Rat) : Rat := if q < 0 then -q else q

/-- The factor `(-1)^s` of R175 and R178. -/
def signed (s : Symbol) (a : Rat) : Rat := if s then -a else a

/-- R15: for a rational `a > 0`, the integer `e` with `2^e <= a < 2^(e+1)`. The two logarithms
leave two candidates, and one comparison decides. Outside `a > 0` the result means nothing and no
well-formed command reaches it. -/
def floorLog2 (a : Rat) : Int :=
  let e : Int := (Nat.log2 a.num.natAbs : Int) - (Nat.log2 a.den : Int)
  if pow2 e ≤ a then e else e - 1

/-- R150: `serialize(P, W)`, exactly `W` symbols, most significant bit first. -/
def serialize (P : Nat) : Nat → BitString
  | 0 => []
  | W + 1 => P.testBit W :: serialize P W

/-- R13: the unsigned integer a bit string spells; the empty string spells 0. -/
def uint (bs : BitString) : Nat := bs.foldl (fun n b => 2 * n + b.toNat) 0

/-- R161, R75: `split(bs, f)` as (sign, exponent_unsigned, mantissa_integer), all unsigned. The
caller has checked the length. -/
def split (bs : BitString) (f : FormatSpec) : Symbol × Nat × Nat :=
  (bs.headD false,
   uint ((bs.drop 1).take f.exponentBits),
   uint ((bs.drop (1 + f.exponentBits)).take f.mantissaBits))

/-- R174 to R178, "applied uniformly": the value of a pattern with `E` exponent bits, `M` mantissa
bits and the given bias, from its sign `s`, exponent field `x` and mantissa field `m`. R73 reads
the 64-bit carrier by the same five cases. -/
def valueOfFields (E M bias : Nat) (s : Symbol) (x m : Nat) : Val :=
  if x = 0 then
    if m = 0 then .zero s
    else .fin (signed s (pow2 (1 - bias) * (m / pow2 M)))
  else if x = 2 ^ E - 1 then
    if m = 0 then .inf s
    else .nan
  else .fin (signed s (pow2 (x - bias) * (1 + m / pow2 M)))

/-- R73: `val_of_b64`. Every binary64 NaN pattern, of any sign and payload, is the one value
`nan`. -/
def valOfB64 (p : Carrier) : Val :=
  valueOfFields 11 52 1023 (p.getLsbD 63) (p.extractLsb' 52 11).toNat (p.extractLsb' 0 52).toNat

/-- R73: the pattern is a binary64 NaN. -/
def isNan64 (p : Carrier) : Bool :=
  p.extractLsb' 52 11 == 0x7FF#11 && p.extractLsb' 0 52 != 0#52

/-- R74: `NAN64_OUT`, "any binary64 NaN", fixed for the implementation. Every binary64 NaN pattern
is a possible value: the free value where it is one, the reference pattern otherwise
(log entry 3). -/
def nan64Out : Carrier :=
  if isNan64 Config.nan64Free then Config.nan64Free else 0x7FF8000000000000#64

/-- R74: `b64_of_val`. The rule's formula serves exponents from -1022 up, which covers every value
the block outputs; below, a value a host presents on `val_in` takes binary64's own subnormal form,
which is what R74's second law needs (log entry 4). DESIGN CHOICE: on a value the carrier does not hold
(`Val.onCarrier`), which no rule gives a pattern to, the mantissa is cut off by the floor, and from
`2^1024` up the exponent runs over its field; R78 leaves such a rounding to the host (log entry 14). -/
def b64OfVal : Val → Carrier
  | .zero s => BitVec.ofNat 64 (s.toNat * 2 ^ 63)
  | .inf s => BitVec.ofNat 64 (s.toNat * 2 ^ 63 + 2047 * 2 ^ 52)
  | .nan => nan64Out
  | .fin q =>
    let a := magnitude q
    let e := floorLog2 a
    if -1022 ≤ e then
      BitVec.ofNat 64 ((signOf q).toNat * 2 ^ 63 + (e + 1023).toNat * 2 ^ 52
        + ((a / pow2 e - 1) * pow2 52).floor.toNat)
    else
      BitVec.ofNat 64 ((signOf q).toNat * 2 ^ 63 + (a / pow2 (-1074)).floor.toNat)

end Sys2Proof.Machine
end

