-- ==== Sys2Proof/WellFormed.lean ====
section
/-! DEFINITION. What is a well-formed value and command, and which values the 64-bit carrier can
hold. Spec: `00_scope.md` R14; `30_encoding.md` R64, R65, R73. -/

namespace Sys2Proof

/-- R14: a finite non-zero number is not zero; the zeros are `zero s`. -/
def Val.wf : Val → Bool
  | .zero _ | .inf _ | .nan => true
  | .fin q => decide (q ≠ 0)

/-- R73: the value is exactly a binary64 number, so that `val_in` can carry it: below `2^1024` and a
multiple of the spacing `2^(max(e, -1022) - 52)`. -/
def Val.onCarrier : Val → Bool
  | .zero _ | .inf _ | .nan => true
  | .fin q =>
    let a := Machine.magnitude q
    let e := Machine.floorLog2 a
    decide (q ≠ 0) && decide (e ≤ 1023) && (a / Machine.pow2 (max e (-1022) - 52)).den == 1

/-- R64, R65: every operand is a value of R14, or any frame at all. -/
def Instr.wf : Instr → Bool
  | .encodeHalf v | .encodeBfloat v | .encodeSingle v | .encodeRsvd3 v => v.wf
  | .decodeHalf _ | .decodeBfloat _ | .decodeSingle _ | .decodeRsvd3 _ => true

/-- The command can be put on the link: its value operand is one the carrier holds (R64). The
meanings themselves take every well-formed value, carried or not (D3). -/
def Instr.onLink : Instr → Bool
  | .encodeHalf v | .encodeBfloat v | .encodeSingle v | .encodeRsvd3 v => v.onCarrier
  | .decodeHalf _ | .decodeBfloat _ | .decodeSingle _ | .decodeRsvd3 _ => true

end Sys2Proof
end

