-- ==== Sys2Proof/Decode.lean ====
section
/-! DEFINITION. From the bits a host presents on the link to a command, and back. A command is the
3-bit header followed by its payload (R61, R77); the opcode map is R69. Spec: `30_encoding.md`
sections 1 and 3. The order of the bits on the link is log entry 1. -/

namespace Sys2Proof

/-- R64: the E-format payload, one value on the 64-bit carrier, most significant bit first. -/
def readValue (payload : BitString) : Except Reject Val :=
  if payload.length = 64 then .ok (Machine.valOfB64 (BitVec.ofNat 64 (Machine.uint payload)))
  else .error (.valueLength payload.length)

/-- R61, R62, R69: the header's bits `op`, `fmt[1]`, `fmt[0]`, then the payload. Every header has
a row (R70); a D-format payload is a frame of any length (R65). -/
def decode : BitString → Except Reject Instr
  | false :: false :: false :: p => (readValue p).map .encodeHalf
  | false :: false :: true :: p => (readValue p).map .encodeBfloat
  | false :: true :: false :: p => (readValue p).map .encodeSingle
  | false :: true :: true :: p => (readValue p).map .encodeRsvd3
  | true :: false :: false :: bs => .ok (.decodeHalf bs)
  | true :: false :: true :: bs => .ok (.decodeBfloat bs)
  | true :: true :: false :: bs => .ok (.decodeSingle bs)
  | true :: true :: true :: bs => .ok (.decodeRsvd3 bs)
  | bits => .error (.headerIncomplete bits.length)

/-- R69: the header of each row, `op` in bit 2 and `fmt` in bits 1 and 0. -/
def header : Instr → BitVec 3
  | .encodeHalf _ => 0b000#3
  | .encodeBfloat _ => 0b001#3
  | .encodeSingle _ => 0b010#3
  | .encodeRsvd3 _ => 0b011#3
  | .decodeHalf _ => 0b100#3
  | .decodeBfloat _ => 0b101#3
  | .decodeSingle _ => 0b110#3
  | .decodeRsvd3 _ => 0b111#3

/-- R64: the 64 bits that carry a value. DESIGN CHOICE: R73 lets a host present any binary64 NaN for a
NaN operand, and every one reads as `nan`; this writes the constant `nan64Out` (log entry 13). What it
writes for a value the carrier does not hold is no host's rounding (log entry 14). -/
def writeValue (v : Val) : BitString := Machine.serialize (Machine.b64OfVal v).toNat 64

/-- R64, R65: the payload of each row. -/
def payload : Instr → BitString
  | .encodeHalf v | .encodeBfloat v | .encodeSingle v | .encodeRsvd3 v => writeValue v
  | .decodeHalf bs | .decodeBfloat bs | .decodeSingle bs | .decodeRsvd3 bs => bs

/-- R61: the bits of a command as a host puts them on the link, for a command that `Instr.onLink` admits
(log entries 1, 13, 14). -/
def encode (i : Instr) : BitString := Machine.serialize (header i).toNat 3 ++ payload i

/-- The bits of the command whose bits, numbered as the opcode table numbers them, are `w`: the
header is `w[2:0]`; above it stand the payload's bits, `val_in[63:0]` for `op = 0`, and for `op = 1`
a frame of the length its format accepts (R45), empty for `fmt = 3`, which has none. Bits of `w` from
`nbits` up are 0 (log entry 5). -/
def tableBits (nbits w : Nat) : BitString :=
  let w := w % 2 ^ nbits
  let payloadBits :=
    if w.testBit 2 then
      match w.testBit 1, w.testBit 0 with
      | false, false => 16
      | false, true => 16
      | true, false => 32
      | true, true => 0
    else 64
  Machine.serialize w 3 ++ Machine.serialize (w / 8) payloadBits

/-- The command the decoder reads from the opcode-table word `w`. -/
def decodeTableWord (nbits w : Nat) : Option Instr := (decode (tableBits nbits w)).toOption

end Sys2Proof
end

