-- ==== Sys2Proof/Machine/State.lean ====
section
/-! DEFINITION. The state of a run, and the types of a response. The codec itself has no mutable
state (R20): a `State` holds what stands at its boundary, the commands presented and the responses
delivered (R18, R31; log entry 6). Spec: `10_state.md`; `30_encoding.md` R67; `60_exceptions.md`
R190; `93_implementation_defined.md` U10. -/

namespace Sys2Proof.Machine

/-- R190: the two errors of the block, and no others. Each is delivered as the response to the
command that caused it (R197); neither stops the machine. -/
inductive CodecError where
  /-- "requested format identifier is not one of the three supported specs" (R191). -/
  | invalidFormat
  /-- "decode input length mismatches the format's total_bits" (R192). -/
  | malformedBitString
deriving DecidableEq, Repr

/-- R17, R128: "the result of an encoding operation". -/
structure EncodedValue where
  bitString : BitString
  decodedDecimal : Val
deriving DecidableEq, Repr

/-- R67, U10: a response is a sum, so an error carries no result field and a success carries every
one of its fields (R47). -/
inductive Response where
  /-- `op = 0`, status OK: `bs_out` and `val_out`. -/
  | okEncode (bs : BitString) (val : Val)
  /-- `op = 1`, status OK: `val_out`. -/
  | okDecode (val : Val)
  /-- Either error: the status and nothing else. -/
  | error (e : CodecError)
deriving DecidableEq, Repr

/-- The boundary of the codec (log entry 6). The codec holds nothing between transactions: no
meaning reads `responses`, and only the fetch of `step` reads `pending`. The three format
descriptors are hard-wired constants (R24, R32), read through `select`, and are no field here. -/
structure State where
  /-- The commands hosts have presented and the codec has not yet taken, oldest first, each as the
  bits of the link (R31, R61, R204). -/
  pending : List BitString
  /-- The responses delivered so far, oldest first (R18, R19). -/
  responses : List Response
deriving DecidableEq, Repr

/-- R220, R32: reset has no architectural effect, since there is nothing to initialise. Nothing is
presented and nothing has been answered (log entry 6). -/
def State.reset : State where
  pending := []
  responses := []

/-- What stops the machine with a fault: nothing. The block cannot hang or lock up (R199, R224), and
its two errors are responses, after which the next command runs. No constructor is safe or unsafe
because there is none. -/
inductive Fault : Type
deriving DecidableEq, Repr

/-- What a step declines to give a meaning to. -/
inductive Refusal where
  /-- Raised by an arm of `exec` for an instruction without a meaning; no arm raises it. Safe. -/
  | notModelled (mnemonic : String)
  /-- Raised by `step` when the bits presented are not a command by R61 and R77, which no carrier the
  spec allows presents (log entry 1). Safe: nothing is claimed of such bits. -/
  | notACommand (why : Reject)
deriving DecidableEq, Repr

end Sys2Proof.Machine
end

