-- ==== Sys2Proof/Machine/FormatSelector.lean ====
section
/-! DEFINITION. The format selector: the three descriptors and the lookup by format code. Spec:
`40_format_selector.md`; `10_state.md` R24. -/

namespace Sys2Proof.Machine

/-- R24: the three hard-wired descriptors. No command writes them, and reset leaves them (R32). -/
def fs : Format → FormatSpec
  | .half => ⟨.half, 16, 1, 5, 10, 15⟩
  | .bfloat => ⟨.bfloat, 16, 1, 8, 7, 127⟩
  | .single => ⟨.single, 32, 1, 8, 23, 127⟩

/-- R90, R91, R63: `select(fmt)`, an exhaustive match on the 2-bit code without a default arm
(R92). -/
def select (fmt : FmtCode) : Except CodecError FormatSpec :=
  match fmt.getLsbD 1, fmt.getLsbD 0 with
  | false, false => .ok (fs .half)
  | false, true => .ok (fs .bfloat)
  | true, false => .ok (fs .single)
  | true, true => .error .invalidFormat

end Sys2Proof.Machine
end

