-- ==== Sys2Proof/Machine/Ops.lean ====
section
/-! DEFINITION. The shared operations at the codec's boundary: taking a command, delivering a
response, raising an error, and what the host's side can do. The block has no registers and no
memory (R21, R40), so there is no read or write of either. Spec: `10_state.md` R31;
`20_memory.md` R47; `60_exceptions.md` R197 to R199; `70_reset_and_hazards.md` R221. -/

namespace Sys2Proof.Machine

/-- The next command's bits and the state with that command taken, if one is presented. -/
def fetch (s : State) : Option (BitString × State) :=
  match s.pending with
  | [] => none
  | bits :: rest => some (bits, { s with pending := rest })

/-- The state after a response leaves the block. -/
def State.deliver (s : State) (r : Response) : State :=
  { s with responses := s.responses ++ [r] }

/-- R19, R47: the end of a transaction is the delivery of its response, whole. -/
def respond (r : Response) (s : State) : Host.Outcome State Fault Refusal :=
  .next (s.deliver r)

/-- R197: an error is delivered as the response to the command that caused it. Nothing is saved, no
mode changes and control goes to no handler; so there is nothing to return from (R199). -/
def raiseError (e : CodecError) (s : State) : Host.Outcome State Fault Refusal :=
  respond (.error e) s

/-- The last step of ENCODE in R120: both fields of the `EncodedValue`, or the error. -/
def finishEncode (r : Except CodecError EncodedValue) (s : State) :
    Host.Outcome State Fault Refusal :=
  match r with
  | .ok ev => respond (.okEncode ev.bitString ev.decodedDecimal) s
  | .error e => raiseError e s

/-- The last step of DECODE in R170: the value, or the error. -/
def finishDecode (r : Except CodecError Val) (s : State) : Host.Outcome State Fault Refusal :=
  match r with
  | .ok d => respond (.okDecode d) s
  | .error e => raiseError e s

/-- R31: what a host does to the block, present a command. -/
def State.present (s : State) (bits : BitString) : State :=
  { s with pending := s.pending ++ [bits] }

/-- R221: a reset or loss of power while transactions are outstanding. They get no response at all,
and what was delivered stays delivered. -/
def State.cutByReset (s : State) : State := { s with pending := [] }

end Sys2Proof.Machine
end

