-- ==== Sys2Proof/Machine/FpToInt.lean ====
section
/-! DEFINITION. `fp_to_int`, the decoder: DECODE.HALF, DECODE.BFLOAT, DECODE.SINGLE, DECODE.RSVD3.
It never rounds (R180). Spec: `45_fp_to_int_decoder.md`; `44_bit_deserializer.md` R160. -/

namespace Sys2Proof.Machine

/-- R160: the length check, on the length only. -/
def checkLength (bs : BitString) (f : FormatSpec) : Except CodecError Unit :=
  if bs.length = f.totalBits then .ok () else .error .malformedBitString

/-- R170: `DECODE_value(bs, f)`, for a frame of `total_bits` symbols. -/
def decodeValue (bs : BitString) (f : FormatSpec) : Val :=
  let (s, x, m) := split bs f
  valueOfFields f.exponentBits f.mantissaBits f.bias s x m

/-- R170: `DECODE(fmt, bs)`; the format is selected before the length is examined (R94, R196). -/
def decodeCommand (fmt : FmtCode) (bs : BitString) : Except CodecError Val :=
  match select fmt with
  | .error e => .error e
  | .ok f =>
    match checkLength bs f with
    | .error e => .error e
    | .ok () => .ok (decodeValue bs f)

/-- R171: DECODE.HALF. -/
def execDecodeHalf (bs : BitString) (s : State) : Host.Outcome State Fault Refusal :=
  finishDecode (decodeCommand 0b00#2 bs) s

/-- R172: DECODE.BFLOAT. -/
def execDecodeBfloat (bs : BitString) (s : State) : Host.Outcome State Fault Refusal :=
  finishDecode (decodeCommand 0b01#2 bs) s

/-- R173: DECODE.SINGLE. -/
def execDecodeSingle (bs : BitString) (s : State) : Host.Outcome State Fault Refusal :=
  finishDecode (decodeCommand 0b10#2 bs) s

/-- R182: DECODE.RSVD3; the selector raises `InvalidFormat` for every frame. -/
def execDecodeRsvd3 (bs : BitString) (s : State) : Host.Outcome State Fault Refusal :=
  finishDecode (decodeCommand 0b11#2 bs) s

end Sys2Proof.Machine
end

