-- ==== Sys2Proof/Machine/RoundingUnit.lean ====
section
/-! DEFINITION. The rounding unit: round-to-nearest-ties-to-even, the only mode (R100), by exact
arithmetic that depends on no native floating-point type (R101). Spec: `41_rounding_unit.md`. -/

namespace Sys2Proof.Machine

/-- R102: `RNE_int(x)` for `x >= 0`. -/
def rneInt (x : Rat) : Nat :=
  let f := x.floor.toNat
  let r := x - f
  if r < 1 / 2 then f
  else if 1 / 2 < r then f + 1
  else if f % 2 = 0 then f
  else f + 1

/-- R103 to R106: `round_to_format(s, a, E, M)` for `a > 0`, the pattern as an unsigned integer of
width `1 + E + M`. A carry out of the mantissa goes into the exponent by itself (R104). -/
def roundToFormat (s : Symbol) (a : Rat) (E M : Nat) : Nat :=
  let bias : Int := 2 ^ (E - 1) - 1
  let emin : Int := 1 - bias
  let e := floorLog2 a
  let eq := max e emin
  let n := rneInt (a / pow2 (eq - M))
  let P := (eq - emin).toNat * 2 ^ M + n
  let pinf := (2 ^ E - 1) * 2 ^ M
  s.toNat * 2 ^ (E + M) + (if pinf ≤ P then pinf else P)

/-- R107: steps 2 to 6 of the bfloat procedure. The sum is kept to 16 bits, which is step 6's
mask. -/
def narrow16 (P32 : BitVec 32) : BitVec 16 :=
  let upper16 := P32.extractLsb' 16 16
  let lower16 := P32.extractLsb' 0 16
  let roundBit := lower16.getLsbD 15
  let inc : Bool :=
    if roundBit then
      let remaining := lower16 &&& 0x7FFF#16
      if remaining ≠ 0#16 then true else upper16.getLsbD 0
    else false
  upper16 + BitVec.ofNat 16 inc.toNat

end Sys2Proof.Machine
end

