-- ==== Sys2Proof/Machine/IntToFp.lean ====
section
/-! DEFINITION. `int_to_fp`, the encoder: ENCODE.HALF, ENCODE.BFLOAT, ENCODE.SINGLE, ENCODE.RSVD3.
An integer operand is presented as the value it is (R134). Spec: `42_int_to_fp_encoder.md`. -/

namespace Sys2Proof.Machine

/-- R127: a half NaN pattern, either sign, exponent all ones, mantissa non-zero. -/
def admissibleNanHalf (p : BitVec 16) : Bool :=
  p.extractLsb' 10 5 == 0x1F#5 && p.extractLsb' 0 10 != 0#10

/-- R127: a single NaN pattern whose narrowing is a bfloat NaN (conflict C1). -/
def admissibleNanSingle (p : BitVec 32) : Bool :=
  p.extractLsb' 23 8 == 0xFF#8 && p.extractLsb' 0 23 != 0#23
    && (narrow16 p).extractLsb' 7 8 == 0xFF#8 && (narrow16 p).extractLsb' 0 7 != 0#7

/-- R127: `NAN_ENC(half)`, constant for the implementation. Every admissible pattern is a possible
value: the free value where it is admissible, the reference pattern otherwise (log entry 2). -/
def nanEncHalf : BitVec 16 :=
  if admissibleNanHalf Config.nanHalfFree then Config.nanHalfFree else 0x7E00#16

/-- R127: `NAN_ENC(single)`, likewise (log entry 2). -/
def nanEncSingle : BitVec 32 :=
  if admissibleNanSingle Config.nanSingleFree then Config.nanSingleFree else 0x7FC00000#32

/-- R124: `direct_pattern(v, E, M)`, with the NaN pattern of its format. -/
def directPattern (v : Val) (E M nanEnc : Nat) : Nat :=
  match v with
  | .zero s => s.toNat * 2 ^ (E + M)
  | .inf s => s.toNat * 2 ^ (E + M) + (2 ^ E - 1) * 2 ^ M
  | .nan => nanEnc
  | .fin q => roundToFormat (signOf q) (magnitude q) E M

/-- R121: the pattern of a value in half, rounded once, directly from the value. -/
def halfPattern (v : Val) : Nat := directPattern v 5 10 nanEncHalf.toNat

/-- R122, and step 1 of R123: the pattern of a value in single. -/
def singlePattern (v : Val) : Nat := directPattern v 8 23 nanEncSingle.toNat

/-- R123, steps 1 to 6: the bfloat pattern is narrowed from the single pattern, NaN included, so
`NAN_ENC(bfloat)` is `narrow16(NAN_ENC(single))` (R127). -/
def bfloatPattern (v : Val) : Nat := (narrow16 (BitVec.ofNat 32 (singlePattern v))).toNat

/-- R120, R94: `pattern(v, f)`, the path the selected format takes. -/
def patternOf (v : Val) : Format → Nat
  | .half => halfPattern v
  | .bfloat => bfloatPattern v
  | .single => singlePattern v

/-- R128: the bit string is the sole source of truth; the second field is re-derived from it. -/
def encodedValue (P : Nat) (f : FormatSpec) : EncodedValue :=
  let bs := serialize P f.totalBits
  { bitString := bs, decodedDecimal := decodeValue bs f }

/-- R120: `ENCODE(fmt, v)`. -/
def encodeCommand (fmt : FmtCode) (v : Val) : Except CodecError EncodedValue :=
  match select fmt with
  | .error e => .error e
  | .ok f => .ok (encodedValue (patternOf v f.name) f)

/-- R121: ENCODE.HALF. -/
def execEncodeHalf (v : Val) (s : State) : Host.Outcome State Fault Refusal :=
  finishEncode (encodeCommand 0b00#2 v) s

/-- R123: ENCODE.BFLOAT. -/
def execEncodeBfloat (v : Val) (s : State) : Host.Outcome State Fault Refusal :=
  finishEncode (encodeCommand 0b01#2 v) s

/-- R122: ENCODE.SINGLE. -/
def execEncodeSingle (v : Val) (s : State) : Host.Outcome State Fault Refusal :=
  finishEncode (encodeCommand 0b10#2 v) s

/-- R129: ENCODE.RSVD3; the selector raises `InvalidFormat` and no part of the value is examined. -/
def execEncodeRsvd3 (v : Val) (s : State) : Host.Outcome State Fault Refusal :=
  finishEncode (encodeCommand 0b11#2 v) s

end Sys2Proof.Machine
end

