-- ==== Sys2Proof/Machine/Dispatch.lean ====
section
/-! DEFINITION. One arm per row of the opcode map (R69), each one call of its meaning. -/

namespace Sys2Proof.Machine

def exec (i : Instr) (s : State) : Host.Outcome State Fault Refusal :=
  match i with
  | .encodeHalf v => Sys2Proof.Machine.execEncodeHalf v s
  | .encodeBfloat v => Sys2Proof.Machine.execEncodeBfloat v s
  | .encodeSingle v => Sys2Proof.Machine.execEncodeSingle v s
  | .encodeRsvd3 v => Sys2Proof.Machine.execEncodeRsvd3 v s
  | .decodeHalf bs => Sys2Proof.Machine.execDecodeHalf bs s
  | .decodeBfloat bs => Sys2Proof.Machine.execDecodeBfloat bs s
  | .decodeSingle bs => Sys2Proof.Machine.execDecodeSingle bs s
  | .decodeRsvd3 bs => Sys2Proof.Machine.execDecodeRsvd3 bs s

end Sys2Proof.Machine
end

