-- ==== Sys2Proof/Machine/Step.lean ====
section
/-! DEFINITION. One step: take the oldest command presented, decode it, run it. Spec: `00_scope.md`
R18, R19; `10_state.md` R22, R31; `30_encoding.md` R61. -/

namespace Sys2Proof.Machine

/-- R31, R195: the codec executes one step per command, the oldest presented (log entry 10), and does
nothing while none is presented (log entry 7). Bits that are no command are refused (log entry 1). -/
def step (s : State) : Host.Outcome State Fault Refusal :=
  match fetch s with
  | none => .next s
  | some (bits, s') =>
    match decode bits with
    | .ok i => exec i s'
    | .error why => .refused (.notACommand why)

/-- The command of an opcode-table word, presented so that the next step takes it (log entry 5). -/
def State.withFetchWord (s : State) (nbits w : Nat) : State :=
  { s with pending := tableBits nbits w :: s.pending }

end Sys2Proof.Machine
end

