-- ==== Sys2Proof/Machine/Flags.lean ====
section
/-! DEFINITION. The block has no flags, condition codes or exception flags (R23, R112, R193). What a
host sees of an outcome is the status field of the response, and the port views of its result
fields, which stand here. Spec: `30_encoding.md` R67, R68. -/

namespace Sys2Proof.Machine

/-- R68: the names of the three statuses. -/
inductive Status where
  | ok
  | invalidFormat
  | malformedBitString
deriving DecidableEq, Repr

/-- R68: the status codes; code 3 is never produced. -/
def statusCode : Status → BitVec 2
  | .ok => 0b00#2
  | .invalidFormat => 0b01#2
  | .malformedBitString => 0b10#2

/-- R67: the status of a response. -/
def statusOf : Response → Status
  | .okEncode _ _ => .ok
  | .okDecode _ => .ok
  | .error .invalidFormat => .invalidFormat
  | .error .malformedBitString => .malformedBitString

/-- R67: `bs_out`, present only for `op = 0` and status OK. -/
def bsOut : Response → Option BitString
  | .okEncode bs _ => some bs
  | .okDecode _ => none
  | .error _ => none

/-- R67, R74: `val_out[63:0]`, present only when the status is OK, on the 64-bit carrier. -/
def valOut : Response → Option Carrier
  | .okEncode _ v => some (b64OfVal v)
  | .okDecode v => some (b64OfVal v)
  | .error _ => none

end Sys2Proof.Machine
end

