-- ==== Sys2Proof/Safety.lean ====
section
/-! DEFINITION. The terms claims use: what a number a value stands for, when a frame is the nearest
one, what a response may hold, and what a safe state is. -/

namespace Sys2Proof

/-- The number a value stands for, where it stands for one. -/
def Val.number : Val → Option Rat
  | .zero _ => some 0
  | .fin q => some q
  | .inf _ | .nan => none

/-- R100, R17: among the frames of the format that stand for a number, `bs` stands for the one
nearest to `q`; of two equally near, `bs` has its last kept bit 0. -/
def NearestEven (f : FormatSpec) (q : Rat) (bs : BitString) : Prop :=
  ∃ r, (Machine.decodeValue bs f).number = some r ∧
    ∀ (bs' : BitString) (r' : Rat), bs'.length = f.totalBits →
      (Machine.decodeValue bs' f).number = some r' → r' ≠ r →
      |q - r| < |q - r'| ∨ (|q - r| = |q - r'| ∧ bs.getLast? = some false)

/-- R47, R128: what a response may hold. A successful encode returns a whole frame of one of the
three formats and the value that frame decodes to; a successful decode returns the value of a whole
frame. -/
def WholeResponse : Machine.Response → Prop
  | .okEncode bs v => ∃ f : Format,
      bs.length = (Machine.fs f).totalBits ∧ v = Machine.decodeValue bs (Machine.fs f)
  | .okDecode v => ∃ (f : Format) (bs : BitString),
      bs.length = (Machine.fs f).totalBits ∧ v = Machine.decodeValue bs (Machine.fs f)
  | .error _ => True

/-- Every response delivered is whole. -/
def AllWhole (s : Machine.State) : Prop := ∀ r ∈ s.responses, WholeResponse r

/-- Everything presented is a command of R61, which is all a carrier presents. -/
def Ready (s : Machine.State) : Prop := ∀ bits ∈ s.pending, ∃ i, decode bits = .ok i

/-- A safe state: the machine can run for any number of steps without a stop. -/
def Safe (s : Machine.State) : Prop := ∀ n, ∃ t, core.run n s = .next t

end Sys2Proof
end

