-- ==== Sys2Proof/Certificates/Slice0/Obligations.lean ====
section
/-! DEFINITION. The statements for the provers. Where a rule of the spec is itself marked a decision
(D<n>) or derived, the docstring says so. A `State` is written `⟨pending, responses⟩`; `s.deliver r` is
`⟨s.pending, s.responses ++ [r]⟩`, the response `r` put after those delivered before and nothing else
changed, as `ResponseDependsOnlyOnTheCommand` says in full. `Instr.encodeOf (some f)` and
`Instr.decodeOf (some f)`, for the three formats `f`, are the constructors `encodeHalf`,
`encodeBfloat`, `encodeSingle` and `decodeHalf`, `decodeBfloat`, `decodeSingle` (R78). -/

open Sys2Proof Sys2Proof.Machine

/-! ### Descriptors, reset, the step -/

/-- R25: the invariant of the descriptors. -/
def Obligations.DescriptorWidthsAddUp : Prop :=
  ∀ f : Format, (fs f).signBits + (fs f).exponentBits + (fs f).mantissaBits = (fs f).totalBits

/-- The selector's table and the bias formula (`40_format_selector.md` `select`; the codes are
decision D6, `InvalidFormat` for both operations decision D9). -/
def Obligations.SelectReadsTheTable : Prop :=
  select 0#2 = .ok ⟨.half, 16, 1, 5, 10, 15⟩ ∧
  select 1#2 = .ok ⟨.bfloat, 16, 1, 8, 7, 127⟩ ∧
  select 2#2 = .ok ⟨.single, 32, 1, 8, 23, 127⟩ ∧
  select 3#2 = .error .invalidFormat ∧
  ∀ f : Format, (fs f).bias = 2 ^ ((fs f).exponentBits - 1) - 1

/-- Right after reset nothing is presented and nothing has been answered, which is the model's
choice of what stands at the boundary (log entry 6); the state is whole and ready, and a step without a
command changes nothing (log entry 7). -/
def Obligations.ResetIsWholeAndReady : Prop :=
  State.reset.pending = [] ∧ State.reset.responses = [] ∧ AllWhole State.reset ∧ Ready State.reset ∧
    step State.reset = .next State.reset

/-- A step runs the decoded command in the state with that command taken. That the commands stand in one
list, and that the step takes the oldest, is the model's choice (log entry 10). -/
def Obligations.StepRunsTheDecodedCommand : Prop :=
  ∀ (s : State) (bits : BitString) (rest : List BitString) (i : Instr),
    s.pending = bits :: rest → decode bits = .ok i →
      step s = exec i ⟨rest, s.responses⟩

/-- Where a step runs no command: it rests when none is presented (log entry 7), and refuses by name
bits that are no command (log entry 1), the oldest presented being the one looked at (log entry 10). All
three are the model's choice. -/
def Obligations.StepRestsOrRefusesByName : Prop :=
  ∀ s : State,
    (s.pending = [] → step s = .next s) ∧
    (∀ (bits : BitString) (rest : List BitString) (why : Reject), s.pending = bits :: rest →
      decode bits = .error why → step s = .refused (.notACommand why))

/-- A reset that cuts outstanding transactions leaves what was delivered, answers nothing, and a
command presented again gets the response it would have had (R221, decision D17). That the reset is the
act `cutByReset` (log entry 9), and that the step after it changes nothing (log entry 7), is the model's
choice. -/
def Obligations.ResetCutsOutstandingCommands : Prop :=
  ∀ s : State, s.cutByReset.responses = s.responses ∧ step s.cutByReset = .next s.cutByReset ∧
    ∀ (bits : BitString) (i : Instr), decode bits = .ok i →
      step (s.cutByReset.present bits) = exec i ⟨[], s.responses⟩

/-! ### Commands on the link -/

/-- One word of each row of the opcode map, written out from the header layout (decisions D5, D6; the
order of the bits on the link is log entry 1). -/
def Obligations.OpcodeMapWordsDecode : Prop :=
  decode ([false, false, false] ++ serialize 0x3FF0000000000000 64) = .ok (.encodeHalf (.fin 1)) ∧
  decode ([false, false, true] ++ serialize 0x8000000000000000 64) =
    .ok (.encodeBfloat (.zero true)) ∧
  decode ([false, true, false] ++ serialize 0x7FF0000000000000 64) =
    .ok (.encodeSingle (.inf false)) ∧
  decode ([false, true, true] ++ serialize 0xFFF0000000000001 64) = .ok (.encodeRsvd3 .nan) ∧
  decode [true, false, false, true, false] = .ok (.decodeHalf [true, false]) ∧
  decode [true, false, true, false, true] = .ok (.decodeBfloat [false, true]) ∧
  decode [true, true, false, true] = .ok (.decodeSingle [true]) ∧
  decode [true, true, true] = .ok (.decodeRsvd3 [])

/-- Decoding is total on the header: bits are rejected only for a header cut short, or for an ENCODE
payload that is not 64 bits (`30_encoding.md` section 1; decision D5). That the first bit presented is
`op`, and that bits which are no command are rejected at all, is the model's choice (log entry 1: the
link is open, D15). -/
def Obligations.OnlyBadLengthsAreRejected : Prop :=
  ∀ bits : BitString,
    (∃ i, decode bits = .ok i) ↔
      3 ≤ bits.length ∧ (bits.head? = some false → bits.length = 67)

/-- Every command the link can carry is read back as it was written, whatever its operand. The order
of the bits is the model's choice (log entry 1), and so is the pattern written for a NaN operand (log
entry 13); the form below `2^-1022` is the model's reading (log entry 4). -/
def Obligations.EncodedCommandDecodesBack : Prop :=
  ∀ i : Instr, i.onLink = true → decode (encode i) = .ok i

/-- The other direction: what decodes is a well-formed command the link can carry, and but for a NaN
operand, whose sign and payload do not survive, its bits are those it was read from. The order of the
bits on the link is the model's choice (log entry 1), and the form below `2^-1022` is the model's
reading (log entry 4). -/
def Obligations.DecodedCommandEncodesBack : Prop :=
  ∀ (bits : BitString) (i : Instr), decode bits = .ok i →
    i.wf = true ∧ i.onLink = true ∧
      ((∀ f, i ≠ Instr.encodeOf f .nan) → encode i = bits)

/-- The carrier's reading of a pattern by the five cases (decision D3 and general knowledge G1). -/
def Obligations.CarrierReadsTheFiveCases : Prop :=
  ∀ (s : Bool) (x m : Nat), x < 2 ^ 11 → m < 2 ^ 52 →
    valOfB64 (BitVec.ofNat 64 (s.toNat * 2 ^ 63 + x * 2 ^ 52 + m)) =
      if x = 0 ∧ m = 0 then .zero s
      else if x = 0 then .fin ((-1) ^ s.toNat * (2 : ℚ) ^ (-1022 : ℤ) * (m / 2 ^ 52))
      else if x = 2047 ∧ m = 0 then .inf s
      else if x = 2047 then .nan
      else .fin ((-1) ^ s.toNat * (2 : ℚ) ^ ((x : ℤ) - 1023) * (1 + m / 2 ^ 52))

/-- The two maps between values and carrier patterns are inverse: on every value the carrier holds,
on every pattern that is not a NaN, and NaN is written as a binary64 NaN (decisions D3, D13; the form
below `2^-1022` is log entry 4). -/
def Obligations.CarrierMapsAreInverse : Prop :=
  (∀ v : Val, v.onCarrier = true → valOfB64 (b64OfVal v) = v) ∧
  (∀ p : Carrier, valOfB64 p ≠ .nan → b64OfVal (valOfB64 p) = p) ∧
  isNan64 (b64OfVal .nan) = true

/-- Everything the block puts on `val_out` is held there exactly: the value of any frame of any of
the three formats is a well-formed value the carrier holds, and a finite non-zero one has a magnitude
in `[2^-149, 2^128)` (derived in `30_encoding.md` section 5). -/
def Obligations.DecodedValuesFitTheCarrier : Prop :=
  ∀ (f : Format) (bs : BitString), bs.length = (fs f).totalBits →
    (decodeValue bs (fs f)).wf = true ∧ (decodeValue bs (fs f)).onCarrier = true ∧
      ∀ q : ℚ, decodeValue bs (fs f) = .fin q → (2 : ℚ) ^ (-149 : ℤ) ≤ |q| ∧ |q| < 2 ^ 128

/-! ### Bit strings -/

/-- R150: the serialiser's symbols. -/
def Obligations.SerializeIsMostSignificantFirst : Prop :=
  ∀ P W : Nat, P < 2 ^ W →
    (serialize P W).length = W ∧
      ∀ i, i < W → (serialize P W)[i]? = some (decide ((P / 2 ^ (W - 1 - i)) % 2 = 1))

/-- The serialiser and `uint` are inverse to each other (derived in `43_bit_serializer.md`). -/
def Obligations.SerializeAndUintAreInverse : Prop :=
  (∀ P W : Nat, P < 2 ^ W → uint (serialize P W) = P) ∧
  (∀ bs : BitString, serialize (uint bs) bs.length = bs)

/-- R161: the split of a frame, by position in the frame and by position in the pattern. -/
def Obligations.SplitCutsTheThreeFields : Prop :=
  ∀ f : Format,
    (∀ (s : Symbol) (xs ms : BitString), xs.length = (fs f).exponentBits →
      ms.length = (fs f).mantissaBits → split (s :: (xs ++ ms)) (fs f) = (s, uint xs, uint ms)) ∧
    (∀ bs : BitString, bs.length = (fs f).totalBits →
      split bs (fs f) =
        ((uint bs).testBit ((fs f).exponentBits + (fs f).mantissaBits),
         uint bs / 2 ^ (fs f).mantissaBits % 2 ^ (fs f).exponentBits,
         uint bs % 2 ^ (fs f).mantissaBits))

/-! ### The rounding unit -/

/-- R102: the nearest integer, and of two equally near the even one. -/
def Obligations.RneIntIsNearestEven : Prop :=
  ∀ x : ℚ, 0 ≤ x →
    (∀ k : ℤ, |x - rneInt x| ≤ |x - k|) ∧
    (∀ k : ℤ, k ≠ rneInt x → |x - rneInt x| = |x - k| → Even (rneInt x))

/-- R113: the tie property. -/
def Obligations.NarrowingTieGoesToEven : Prop :=
  ∀ P32 : BitVec 32, P32.extractLsb' 0 16 = 0x8000#16 →
    ((P32.extractLsb' 16 16).getLsbD 0 = false → narrow16 P32 = P32.extractLsb' 16 16) ∧
    ((P32.extractLsb' 16 16).getLsbD 0 = true → narrow16 P32 = P32.extractLsb' 16 16 + 1#16)

/-- What narrowing makes of a single NaN pattern with kept bits `h` and discarded bits `l`: a bfloat
NaN, but for the two cases that `NAN_ENC(single)` may not fall under (derived in
`41_rounding_unit.md` section 4). -/
def Obligations.NarrowingOfNanPatterns : Prop :=
  ∀ (s : Bool) (h l : Nat), h < 2 ^ 7 → l < 2 ^ 16 → (h ≠ 0 ∨ l ≠ 0) →
    let P16 := (narrow16 (BitVec.ofNat 32 (s.toNat * 2 ^ 31 + 255 * 2 ^ 23 + h * 2 ^ 16 + l))).toNat
    (h = 0 ∧ l ≤ 0x8000 → P16 = s.toNat * 2 ^ 15 + 0x7F80) ∧
    (h = 0x7F ∧ 0x8000 ≤ l → P16 = if s then 0x0000 else 0x8000) ∧
    (¬ (h = 0 ∧ l ≤ 0x8000) → ¬ (h = 0x7F ∧ 0x8000 ≤ l) →
      s.toNat * 2 ^ 15 + 0x7F80 < P16 ∧ P16 < (s.toNat + 1) * 2 ^ 15)

/-- The carry out of the exponent at the top of the range is an infinity, by the addition and not by
the mask (derived in `41_rounding_unit.md` section 4; conflict C2, open question U6). -/
def Obligations.NarrowingCarriesIntoInfinity : Prop :=
  ∀ l : Nat, l < 2 ^ 16 →
    narrow16 (BitVec.ofNat 32 (0x7F7F0000 + l)) = (if l < 0x8000 then 0x7F7F#16 else 0x7F80#16) ∧
    narrow16 (BitVec.ofNat 32 (0xFF7F0000 + l)) = (if l < 0x8000 then 0xFF7F#16 else 0xFF80#16)

/-- Narrowing a single pattern that is not a NaN rounds the number it stands for onto the bfloat
grid, ties to even, infinities and zeros going to their own (derived in `41_rounding_unit.md`
section 4). -/
def Obligations.NarrowingRoundsOntoTheBfloatGrid : Prop :=
  ∀ P32 : BitVec 32,
    match decodeValue (serialize P32.toNat 32) (fs .single) with
    | .zero s => (narrow16 P32).toNat = s.toNat * 2 ^ 15
    | .inf s => (narrow16 P32).toNat = s.toNat * 2 ^ 15 + 0x7F80
    | .fin q => (narrow16 P32).toNat = roundToFormat (decide (q < 0)) |q| 8 7
    | .nan => True

/-! ### The encoder -/

/-- R130: ENCODE.HALF, ENCODE.BFLOAT and ENCODE.SINGLE complete with status OK for every value and so
for each of the 2^64 carrier patterns, and deliver a whole frame with the value that frame decodes
to. -/
def Obligations.EncodeIsTotal : Prop :=
  (∀ p : Carrier, (valOfB64 p).wf = true) ∧
  ∀ (v : Val) (s : State),
    (∃ bs, bs.length = 16 ∧
      exec (.encodeHalf v) s = .next (s.deliver (.okEncode bs (decodeValue bs (fs .half))))) ∧
    (∃ bs, bs.length = 16 ∧
      exec (.encodeBfloat v) s = .next (s.deliver (.okEncode bs (decodeValue bs (fs .bfloat))))) ∧
    (∃ bs, bs.length = 32 ∧
      exec (.encodeSingle v) s = .next (s.deliver (.okEncode bs (decodeValue bs (fs .single)))))

/-- ENCODE.RSVD3 completes with `InvalidFormat` and no result field, whatever the value, and that is
the only error an ENCODE delivers (R129; that `fmt = 3` is the unrecognised format is decision D6). -/
def Obligations.EncodeReservedRaisesInvalidFormat : Prop :=
  (∀ (v : Val) (s : State), exec (.encodeRsvd3 v) s = .next (s.deliver (.error .invalidFormat))) ∧
  (∀ (f : Option Format) (v : Val) (s : State) (e : CodecError),
    exec (Instr.encodeOf f v) s = .next (s.deliver (.error e)) → f = none ∧ e = .invalidFormat)

/-- R125: a zero keeps its sign and has every other bit 0; a finite number that rounds to a zero
rounds to the zero of its own sign. -/
def Obligations.ZeroEncodesWithItsSign : Prop :=
  ∀ (f : Format) (st : State),
    (∀ s : Symbol, exec (Instr.encodeOf (some f) (.zero s)) st =
      .next (st.deliver (.okEncode (s :: List.replicate ((fs f).totalBits - 1) false) (.zero s)))) ∧
    (∀ q : ℚ, q ≠ 0 → ∃ bs d,
      exec (Instr.encodeOf (some f) (.fin q)) st = .next (st.deliver (.okEncode bs d)) ∧
      ∀ s, d = .zero s →
        s = decide (q < 0) ∧ bs = s :: List.replicate ((fs f).totalBits - 1) false)

/-- An infinity keeps its sign, with exponent bits 1 and mantissa bits 0; so does a finite number at
or beyond the overflow threshold (65520, `2^127 * (2 - 2^-8)`, `2^128 - 2^103`; decision D10). -/
def Obligations.InfinityEncodesWithItsSign : Prop :=
  ∀ (f : Format) (st : State),
    (∀ s : Symbol, exec (Instr.encodeOf (some f) (.inf s)) st = .next (st.deliver (.okEncode
      (s :: (List.replicate (fs f).exponentBits true ++ List.replicate (fs f).mantissaBits false))
      (.inf s)))) ∧
    (∀ q : ℚ, (match f with
        | .half => 65520
        | .bfloat => 2 ^ 127 * (2 - (1 / 2) ^ 8)
        | .single => 2 ^ 128 - 2 ^ 103) ≤ |q| →
      exec (Instr.encodeOf (some f) (.fin q)) st =
        exec (Instr.encodeOf (some f) (.inf (decide (q < 0)))) st)

/-- NaN encodes, for each format, to one frame that is the same in every transaction: exponent bits
all 1, at least one mantissa bit 1, and it decodes to NaN. Which frame is a free value of the
implementation (decision D12; log entry 2): this holds for every admissible one. -/
def Obligations.NanEncodesToOneNan : Prop :=
  ∀ f : Format, ∃ (s : Symbol) (ms : BitString), ms.length = (fs f).mantissaBits ∧ true ∈ ms ∧
    ∀ st : State, exec (Instr.encodeOf (some f) .nan) st = .next (st.deliver
      (.okEncode (s :: (List.replicate (fs f).exponentBits true ++ ms)) .nan))

/-- ENCODE.HALF of a finite number below the overflow threshold delivers the nearest half, of two
equally near the one whose last bit is 0 (derived in `41_rounding_unit.md` section 3). -/
def Obligations.HalfEncodesTheNearest : Prop :=
  ∀ (q : ℚ) (st : State), q ≠ 0 → |q| < 65520 →
    ∃ bs, bs.length = 16 ∧ bs.head? = some (decide (q < 0)) ∧ NearestEven (fs .half) q bs ∧
      exec (.encodeHalf (.fin q)) st = .next (st.deliver (.okEncode bs (decodeValue bs (fs .half))))

/-- ENCODE.SINGLE likewise, below `2^128 - 2^103`. -/
def Obligations.SingleEncodesTheNearest : Prop :=
  ∀ (q : ℚ) (st : State), q ≠ 0 → |q| < 2 ^ 128 - 2 ^ 103 →
    ∃ bs, bs.length = 32 ∧ bs.head? = some (decide (q < 0)) ∧ NearestEven (fs .single) q bs ∧
      exec (.encodeSingle (.fin q)) st = .next (st.deliver (.okEncode bs (decodeValue bs (fs .single))))

/-- ENCODE.BFLOAT delivers the narrowing of the pattern ENCODE.SINGLE delivers for the same value, NaN
included (decision D11 for the rounding of step 1). -/
def Obligations.BfloatNarrowsTheSinglePattern : Prop :=
  ∀ v : Val, ∃ P32 : BitVec 32, ∀ st : State,
    exec (.encodeSingle v) st = .next (st.deliver (.okEncode (serialize P32.toNat 32)
      (decodeValue (serialize P32.toNat 32) (fs .single)))) ∧
    exec (.encodeBfloat v) st = .next (st.deliver (.okEncode (serialize (narrow16 P32).toNat 16)
      (decodeValue (serialize (narrow16 P32).toNat 16) (fs .bfloat))))

/-- The bfloat result is rounded twice: `1 + 2^-8 + 2^-30` gives `0x3F80`, where one rounding onto the
bfloat grid would give `0x3F81` (derived in `41_rounding_unit.md` section 4). -/
def Obligations.BfloatRoundsTwice : Prop :=
  (∀ st : State, exec (.encodeBfloat (.fin (1 + 1 / 2 ^ 8 + 1 / 2 ^ 30))) st =
    .next (st.deliver (.okEncode (serialize 0x3F80 16) (.fin 1)))) ∧
  roundToFormat false (1 + 1 / 2 ^ 8 + 1 / 2 ^ 30) 8 7 = 0x3F81

/-- A finite number overflows to the infinity of its sign exactly at the threshold, in half and in
single (decision D10). -/
def Obligations.OverflowExactlyAtTheThreshold : Prop :=
  ∀ (q : ℚ) (st : State), q ≠ 0 →
    (∃ bs d, exec (.encodeHalf (.fin q)) st = .next (st.deliver (.okEncode bs d)) ∧
      (d = .inf (decide (q < 0)) ↔ 65520 ≤ |q|) ∧
      (|q| < 65520 → ∃ r, d.number = some r ∧ |r| ≤ 65504)) ∧
    (∃ bs d, exec (.encodeSingle (.fin q)) st = .next (st.deliver (.okEncode bs d)) ∧
      (d = .inf (decide (q < 0)) ↔ 2 ^ 128 - 2 ^ 103 ≤ |q|) ∧
      (|q| < 2 ^ 128 - 2 ^ 103 → ∃ r, d.number = some r ∧ |r| ≤ 2 ^ 128 - 2 ^ 104))

/-- A finite non-zero number becomes the zero of its sign exactly up to half the smallest subnormal,
in half and in single: there is no flush to zero (derived in `41_rounding_unit.md` section 3;
decision D22). -/
def Obligations.UnderflowExactlyAtTheThreshold : Prop :=
  ∀ (q : ℚ) (st : State), q ≠ 0 →
    (∃ bs d, exec (.encodeHalf (.fin q)) st = .next (st.deliver (.okEncode bs d)) ∧
      (d = .zero (decide (q < 0)) ↔ |q| ≤ 1 / 2 ^ 25)) ∧
    (∃ bs d, exec (.encodeSingle (.fin q)) st = .next (st.deliver (.okEncode bs d)) ∧
      (d = .zero (decide (q < 0)) ↔ |q| ≤ 1 / 2 ^ 150))

/-- The first symbol of the frame is the sign of the value, for every zero, infinity and finite
value, in all three formats (derived in `42_int_to_fp_encoder.md` section 5). -/
def Obligations.EncodeKeepsTheSign : Prop :=
  ∀ (f : Format) (v : Val) (s : Symbol), v.wf = true →
    (v = .zero s ∨ v = .inf s ∨ ∃ q, v = .fin q ∧ s = decide (q < 0)) →
    ∃ bs d, bs.head? = some s ∧ ∀ st : State,
      exec (Instr.encodeOf (some f) v) st = .next (st.deliver (.okEncode bs d))

/-- R131: round trip. What ENCODE delivers as the value is what DECODE delivers for its frame. -/
def Obligations.EncodeThenDecodeRoundTrips : Prop :=
  ∀ (f : Format) (v : Val), ∃ bs d, ∀ st st' : State,
    exec (Instr.encodeOf (some f) v) st = .next (st.deliver (.okEncode bs d)) ∧
    exec (Instr.decodeOf (some f) bs) st' = .next (st'.deliver (.okDecode d))

/-- Idempotence: encoding an already rounded value delivers the same frame, NaN included (derived in
`42_int_to_fp_encoder.md` section 5). -/
def Obligations.EncodeIsIdempotent : Prop :=
  ∀ (f : Format) (v : Val), v.wf = true → ∃ bs d, ∀ st : State,
    exec (Instr.encodeOf (some f) v) st = .next (st.deliver (.okEncode bs d)) ∧
    exec (Instr.encodeOf (some f) d) st = .next (st.deliver (.okEncode bs d))

/-- Small integers encode exactly: up to 2048 in half, 256 in bfloat, `2^24` in single (from
`42_int_to_fp_encoder.md` section 6, decision D4, and the corollary of idempotence). -/
def Obligations.SmallIntegersEncodeExactly : Prop :=
  ∀ (n : ℤ) (st : State), n ≠ 0 →
    (|n| ≤ 2 ^ 11 → ∃ bs,
      exec (.encodeHalf (.fin n)) st = .next (st.deliver (.okEncode bs (.fin n)))) ∧
    (|n| ≤ 2 ^ 8 → ∃ bs,
      exec (.encodeBfloat (.fin n)) st = .next (st.deliver (.okEncode bs (.fin n)))) ∧
    (|n| ≤ 2 ^ 24 → ∃ bs,
      exec (.encodeSingle (.fin n)) st = .next (st.deliver (.okEncode bs (.fin n))))

/-! ### The decoder -/

/-- R174 to R178: the five cases, for each of the three formats and every frame of its length,
written from its fields. -/
def Obligations.DecodeGivesTheFiveCases : Prop :=
  ∀ (f : Format) (s : Symbol) (xs ms : BitString) (st : State),
    xs.length = (fs f).exponentBits → ms.length = (fs f).mantissaBits →
    let frame := s :: (xs ++ ms)
    let answers (v : Val) : Prop :=
      exec (Instr.decodeOf (some f) frame) st = .next (st.deliver (.okDecode v))
    (true ∉ xs → true ∉ ms → answers (.zero s)) ∧
    (true ∉ xs → true ∈ ms → answers (.fin ((-1) ^ s.toNat * (2 : ℚ) ^ (1 - ((fs f).bias : ℤ)) *
      (uint ms / 2 ^ (fs f).mantissaBits)))) ∧
    (false ∉ xs → true ∉ ms → answers (.inf s)) ∧
    (false ∉ xs → true ∈ ms → answers .nan ∧ valOut (.okDecode .nan) = some nan64Out) ∧
    (true ∈ xs → false ∈ xs → answers (.fin ((-1) ^ s.toNat *
      (2 : ℚ) ^ ((uint xs : ℤ) - (fs f).bias) * (1 + uint ms / 2 ^ (fs f).mantissaBits))))

/-- R160: a frame whose length is not the format's is `MalformedBitString`, and nothing else is
delivered. -/
def Obligations.DecodeRefusesOtherLengths : Prop :=
  ∀ (bs : BitString) (s : State),
    (bs.length ≠ 16 →
      exec (.decodeHalf bs) s = .next (s.deliver (.error .malformedBitString))) ∧
    (bs.length ≠ 16 →
      exec (.decodeBfloat bs) s = .next (s.deliver (.error .malformedBitString))) ∧
    (bs.length ≠ 32 →
      exec (.decodeSingle bs) s = .next (s.deliver (.error .malformedBitString)))

/-- DECODE.HALF, DECODE.BFLOAT and DECODE.SINGLE complete with status OK and a well-formed value for
every frame of the right length (derived in `44_bit_deserializer.md`). -/
def Obligations.DecodeAcceptsEveryFrame : Prop :=
  ∀ bs : BitString,
    (bs.length = 16 → ∃ d : Val, d.wf = true ∧ ∀ s : State,
      exec (.decodeHalf bs) s = .next (s.deliver (.okDecode d))) ∧
    (bs.length = 16 → ∃ d : Val, d.wf = true ∧ ∀ s : State,
      exec (.decodeBfloat bs) s = .next (s.deliver (.okDecode d))) ∧
    (bs.length = 32 → ∃ d : Val, d.wf = true ∧ ∀ s : State,
      exec (.decodeSingle bs) s = .next (s.deliver (.okDecode d)))

/-- DECODE.RSVD3 completes with `InvalidFormat` for every frame of every length: the format is checked
before the length (decision D9). -/
def Obligations.DecodeReservedRaisesInvalidFormat : Prop :=
  ∀ (bs : BitString) (s : State), exec (.decodeRsvd3 bs) s = .next (s.deliver (.error .invalidFormat))

/-- R179: the shift form for bfloat, and that no such shortcut exists for half. -/
def Obligations.BfloatDecodesAsShiftedSingle : Prop :=
  (∀ (P : Nat) (st : State), P < 2 ^ 16 →
    decodeValue (serialize P 16) (fs .bfloat) = decodeValue (serialize (P <<< 16) 32) (fs .single) ∧
    exec (.decodeBfloat (serialize P 16)) st = exec (.decodeSingle (serialize (P <<< 16) 32)) st) ∧
  (∃ P, P < 2 ^ 16 ∧
    decodeValue (serialize P 16) (fs .half) ≠ decodeValue (serialize (P <<< 16) 32) (fs .single))

/-- Decode then encode gives the frame back, but for NaN; hence two different frames of one format
never decode to the same value, NaN apart (derived in `45_fp_to_int_decoder.md` section 4). -/
def Obligations.DecodeThenEncodeKeepsTheFrame : Prop :=
  ∀ (f : Format) (bs : BitString), bs.length = (fs f).totalBits →
    (∃ d, ∀ st : State,
      exec (Instr.decodeOf (some f) bs) st = .next (st.deliver (.okDecode d)) ∧
      (d ≠ .nan → exec (Instr.encodeOf (some f) d) st = .next (st.deliver (.okEncode bs d)))) ∧
    (∀ bs' : BitString, bs'.length = (fs f).totalBits →
      decodeValue bs (fs f) ≠ .nan → decodeValue bs (fs f) = decodeValue bs' (fs f) → bs = bs')

/-! ### The whole machine -/

/-- The response to a command is a function of that command alone, and delivering it changes nothing
else: this is the frame of all eight instructions (`20_memory.md` section 4). -/
def Obligations.ResponseDependsOnlyOnTheCommand : Prop :=
  ∃ response : Instr → Response, ∀ (i : Instr) (s : State),
    exec i s = .next ⟨s.pending, s.responses ++ [response i]⟩

/-- A run over any commands presented, after any history, delivers the pointwise image of one function
of a command: no response depends on the commands before, after or beside it (decision D19). That the
commands of all hosts stand in one ordered list is the model's choice (log entry 10). -/
def Obligations.RunIsThePointwiseImage : Prop :=
  ∃ response : Instr → Response, ∀ (s : State) (is : List Instr),
    s.pending.map decode = is.map .ok →
      core.run is.length s = .next
        ⟨[], s.responses ++ is.map response⟩

/-- Every step keeps every delivered response whole, and keeps what is presented a command; the step
with nothing presented is the model's choice (log entry 7). -/
def Obligations.StepKeepsResponsesWhole : Prop :=
  ∀ s t : State, step s = .next t → (AllWhole s → AllWhole t) ∧ (Ready s → Ready t)

/-- A step on a command takes that command and delivers exactly one whole response: the block cannot
hang (`70_reset_and_hazards.md` section 4). That it takes the oldest and leaves the others in order is the
model's choice (log entry 10). -/
def Obligations.StepAnswersExactlyOneCommand : Prop :=
  ∀ (s : State) (bits : BitString) (rest : List BitString), s.pending = bits :: rest → Ready s →
    ∃ r, WholeResponse r ∧ step s = .next ⟨rest, s.responses ++ [r]⟩

/-- From any state whose presented bits are commands, the machine runs for any number of steps
without a stop. For more steps than there are commands this rests on the model's choice that a step with
nothing presented changes nothing (log entry 7). -/
def Obligations.ReadyStatesAreSafe : Prop := ∀ s : State, Ready s → Safe s

/-- A failed command leaves nothing behind: the next command gets the response it would have had, and
the failed one, issued again, fails the same way (decision D8). -/
def Obligations.FailedCommandLeavesNothing : Prop :=
  ∀ (i j : Instr) (e : CodecError) (s : State),
    exec i s = .next (s.deliver (.error e)) →
    ∃ r, exec j s = .next (s.deliver r) ∧
      exec j (s.deliver (.error e)) = .next ((s.deliver (.error e)).deliver r) ∧
      exec i ((s.deliver (.error e)).deliver r) =
        .next (((s.deliver (.error e)).deliver r).deliver (.error e))

/-- R67, R68, R74: the status and the port views of each form of response, the three status codes,
and that the status says which fields are present (decisions D7, D8; the carrier is decision D3). -/
def Obligations.StatusTellsWhichFieldsArePresent : Prop :=
  (∀ (bs : BitString) (v : Val), statusOf (.okEncode bs v) = .ok ∧
    bsOut (.okEncode bs v) = some bs ∧ valOut (.okEncode bs v) = some (b64OfVal v)) ∧
  (∀ v : Val, statusOf (.okDecode v) = .ok ∧
    bsOut (.okDecode v) = none ∧ valOut (.okDecode v) = some (b64OfVal v)) ∧
  (∀ e : CodecError, bsOut (.error e) = none ∧ valOut (.error e) = none) ∧
  statusOf (.error .invalidFormat) = .invalidFormat ∧
  statusOf (.error .malformedBitString) = .malformedBitString ∧
  statusCode .ok = 0#2 ∧ statusCode .invalidFormat = 1#2 ∧ statusCode .malformedBitString = 2#2 ∧
  ∀ r : Response,
    ((valOut r).isSome ↔ statusOf r = .ok) ∧ ((bsOut r).isSome → statusOf r = .ok) ∧
      statusCode (statusOf r) ≠ 3#2 ∧ (statusCode (statusOf r) = 0#2 ↔ statusOf r = .ok)
end

