-- ==== Sys2Proof/Laws/Operands.lean ====
section
/-! SUPPORT. What the operand helpers compute: powers of two, the binary logarithm, bit strings and
the fields cut from them. -/

namespace Sys2Proof.Machine

theorem pow2_eq_zpow (k : Int) : pow2 k = (2 : ℚ) ^ k := by
  cases k with
  | ofNat n => simp [pow2]
  | negSucc n => simp [pow2, zpow_negSucc]

theorem pow2_pos (k : Int) : 0 < pow2 k := by
  rw [pow2_eq_zpow]; positivity

theorem signed_eq_mul (s : Symbol) (a : ℚ) : signed s a = (-1) ^ s.toNat * a := by
  cases s <;> simp [signed]

theorem magnitude_eq_abs (q : ℚ) : magnitude q = |q| := by
  unfold magnitude
  split
  · rw [abs_of_neg ‹_›]
  · rw [abs_of_nonneg (not_lt.mp ‹_›)]

theorem magnitude_pos {q : ℚ} (h : q ≠ 0) : 0 < magnitude q := by
  rw [magnitude_eq_abs]; exact abs_pos.mpr h

theorem signed_signOf_magnitude (q : ℚ) : signed (signOf q) (magnitude q) = q := by
  by_cases h : q < 0 <;> simp [signed, signOf, magnitude, h]

/-- R15: what `floorLog2` computes, for every rational `a > 0`. -/
theorem floorLog2_spec {a : ℚ} (ha : 0 < a) :
    (2 : ℚ) ^ floorLog2 a ≤ a ∧ a < (2 : ℚ) ^ (floorLog2 a + 1) := by
  have hnum : 0 < a.num := Rat.num_pos.mpr ha
  have hn0 : a.num.natAbs ≠ 0 := by omega
  have hd0 : a.den ≠ 0 := a.den_nz
  have haq : a = (a.num.natAbs : ℚ) / (a.den : ℚ) := by
    have habs : ((a.num.natAbs : Int) : ℚ) = (a.num : ℚ) := by
      rw [Int.natAbs_of_nonneg hnum.le]
    conv_lhs => rw [← Rat.num_div_den a, ← habs]
    simp only [Int.cast_natCast]
  have hn1 : ((2 : ℚ) ^ (Nat.log2 a.num.natAbs)) ≤ a.num.natAbs := by
    exact_mod_cast Nat.log2_self_le hn0
  have hn2 : (a.num.natAbs : ℚ) < 2 ^ (Nat.log2 a.num.natAbs + 1) := by
    exact_mod_cast Nat.lt_log2_self (n := a.num.natAbs)
  have hd1 : ((2 : ℚ) ^ (Nat.log2 a.den)) ≤ a.den := by
    exact_mod_cast Nat.log2_self_le hd0
  have hd2 : (a.den : ℚ) < 2 ^ (Nat.log2 a.den + 1) := by
    exact_mod_cast Nat.lt_log2_self (n := a.den)
  have hdpos : (0 : ℚ) < a.den := by exact_mod_cast a.den_pos
  generalize hln : Nat.log2 a.num.natAbs = ln at *
  generalize hld : Nat.log2 a.den = ld at *
  have low : (2 : ℚ) ^ ((ln : Int) - ld - 1) ≤ a := by
    rw [haq, le_div_iff₀ hdpos]
    calc (2 : ℚ) ^ ((ln : Int) - ld - 1) * a.den
        ≤ (2 : ℚ) ^ ((ln : Int) - ld - 1) * 2 ^ (ld + 1) := by gcongr
      _ = (2 : ℚ) ^ ln := by
          rw [← zpow_natCast, ← zpow_natCast, ← zpow_add₀ (by norm_num)]; congr 1; push_cast; ring
      _ ≤ _ := hn1
  have high : a < (2 : ℚ) ^ ((ln : Int) - ld + 1) := by
    rw [haq, div_lt_iff₀ hdpos]
    calc (a.num.natAbs : ℚ) < 2 ^ (ln + 1) := hn2
      _ = (2 : ℚ) ^ ((ln : Int) - ld + 1) * 2 ^ ld := by
          rw [← zpow_natCast, ← zpow_natCast, ← zpow_add₀ (by norm_num)]; congr 1; push_cast; ring
      _ ≤ _ := by gcongr
  simp only [floorLog2, hln, hld, pow2_eq_zpow]
  split
  · exact ⟨‹_›, high⟩
  · exact ⟨low, by simpa using not_le.mp ‹_›⟩

/-- The exponent is the only one that brackets the number. -/
theorem floorLog2_unique {a : ℚ} {e : Int} (h1 : (2 : ℚ) ^ e ≤ a) (h2 : a < (2 : ℚ) ^ (e + 1)) :
    floorLog2 a = e := by
  have ha : 0 < a := lt_of_lt_of_le (by positivity) h1
  obtain ⟨g1, g2⟩ := floorLog2_spec ha
  have k1 := (zpow_lt_zpow_iff_right₀ (by norm_num : (1 : ℚ) < 2)).mp (lt_of_le_of_lt g1 h2)
  have k2 := (zpow_lt_zpow_iff_right₀ (by norm_num : (1 : ℚ) < 2)).mp (lt_of_le_of_lt h1 g2)
  omega

@[simp] theorem serialize_length (P W : Nat) : (serialize P W).length = W := by
  induction W with
  | zero => rfl
  | succ W ih => simp [serialize, ih]

theorem serialize_congr {P Q : Nat} (W : Nat) (h : P % 2 ^ W = Q % 2 ^ W) :
    serialize P W = serialize Q W := by
  induction W with
  | zero => rfl
  | succ W ih =>
    have hW : P % 2 ^ W = Q % 2 ^ W := by
      have := congrArg (· % 2 ^ W) h
      simpa [Nat.mod_mod_of_dvd _ (pow_dvd_pow 2 (Nat.le_succ W))] using this
    have hbit : P.testBit W = Q.testBit W := by
      have := congrArg (fun n => n.testBit W) h
      simpa [Nat.testBit_mod_two_pow] using this
    simp [serialize, hbit, ih hW]

/-- A string of `m + n` symbols spells its high part, then its low part. -/
theorem serialize_append {b n : Nat} (a m : Nat) (hb : b < 2 ^ n) :
    serialize (a * 2 ^ n + b) (m + n) = serialize a m ++ serialize b n := by
  induction m with
  | zero =>
    simp only [Nat.zero_add, serialize, List.nil_append]
    exact serialize_congr n (by simp [Nat.mul_add_mod_self_right])
  | succ m ih =>
    have hbit : (a * 2 ^ n + b).testBit (m + n) = a.testBit m := by
      rw [Nat.mul_comm, Nat.testBit_two_pow_mul_add _ hb]
      simp
    rw [show m + 1 + n = (m + n) + 1 by omega]
    simp [serialize, ih, hbit]

theorem uint_foldl (bs : BitString) (n : Nat) :
    bs.foldl (fun n b => 2 * n + b.toNat) n = n * 2 ^ bs.length + uint bs := by
  induction bs generalizing n with
  | nil => simp [uint]
  | cons b bs ih =>
    simp only [uint, List.foldl_cons, List.length_cons]
    rw [ih, ih (2 * 0 + b.toNat)]
    ring

@[simp] theorem uint_nil : uint [] = 0 := rfl

theorem uint_cons (b : Symbol) (bs : BitString) :
    uint (b :: bs) = b.toNat * 2 ^ bs.length + uint bs := by
  rw [uint, List.foldl_cons, uint_foldl]; simp

theorem uint_append (xs ys : BitString) :
    uint (xs ++ ys) = uint xs * 2 ^ ys.length + uint ys := by
  rw [uint, List.foldl_append, uint_foldl, ← uint]

theorem uint_lt (bs : BitString) : uint bs < 2 ^ bs.length := by
  induction bs with
  | nil => simp
  | cons b bs ih =>
    rw [uint_cons, List.length_cons, pow_succ]
    cases b <;> simp <;> omega

theorem uint_serialize_mod (P W : Nat) : uint (serialize P W) = P % 2 ^ W := by
  induction W with
  | zero => simp [serialize, Nat.mod_one]
  | succ W ih =>
    rw [serialize, uint_cons, ih, serialize_length, Nat.mod_pow_succ, Nat.add_comm, Nat.mul_comm,
      Nat.toNat_testBit]

theorem split_append (f : FormatSpec) (s : Symbol) {xs ms : BitString}
    (hx : xs.length = f.exponentBits) (hm : ms.length = f.mantissaBits) :
    split (s :: (xs ++ ms)) f = (s, uint xs, uint ms) := by
  have h1 : List.take f.exponentBits (xs ++ ms) = xs := by rw [← hx]; simp
  have h2 : List.drop (1 + f.exponentBits) (s :: (xs ++ ms)) = ms := by
    rw [Nat.add_comm, List.drop_succ_cons, ← hx]; simp
  simp only [split, List.headD_cons, List.drop_succ_cons, List.drop_zero, h1, h2]
  rw [← hm, List.take_length]

/-- An all-zero field reads 0, and no other does. -/
theorem uint_eq_zero {xs : BitString} : uint xs = 0 ↔ true ∉ xs := by
  induction xs with
  | nil => simp
  | cons b bs ih => rw [uint_cons]; cases b <;> simp [ih]

/-- An all-one field reads `2^n - 1`, and no other does. -/
theorem uint_eq_ones {xs : BitString} : uint xs = 2 ^ xs.length - 1 ↔ false ∉ xs := by
  induction xs with
  | nil => simp
  | cons b bs ih =>
    have := uint_lt bs
    rw [uint_cons, List.length_cons, pow_succ]
    cases b
    · simp; omega
    · simp; rw [← ih]; omega

theorem signed_ne_zero {s : Symbol} {a : ℚ} (h : a ≠ 0) : signed s a ≠ 0 := by
  cases s <;> simp [signed, h]

/-- The five cases yield values of R14 only. -/
theorem valueOfFields_wf (E M bias : Nat) (s : Symbol) (x m : Nat) :
    (valueOfFields E M bias s x m).wf = true := by
  have h1 := pow2_pos (1 - (bias : Int))
  have h2 := pow2_pos M
  have h3 := pow2_pos ((x : Int) - bias)
  unfold valueOfFields
  split_ifs with a b c d <;> simp only [Val.wf, decide_eq_true_eq]
  · have : (0 : ℚ) < m := by exact_mod_cast Nat.pos_of_ne_zero b
    exact signed_ne_zero (by positivity)
  · exact signed_ne_zero (by positivity)

/-- A bit string is the serialisation of the number it spells. -/
theorem serialize_uint (bs : BitString) : serialize (uint bs) bs.length = bs := by
  induction bs with
  | nil => rfl
  | cons b bs ih =>
    have hl := uint_lt bs
    rw [List.length_cons, serialize]
    congr 1
    · rw [uint_cons, Nat.mul_comm, Nat.testBit_two_pow_mul_add _ hl]; cases b <;> simp
    · conv_rhs => rw [← ih]
      apply serialize_congr
      rw [uint_cons, Nat.mul_comm]; simp

/-- The first symbol is the bit above the others. -/
theorem serialize_head (s : Symbol) {P k W : Nat} (hW : W = 1 + k) (hP : P < 2 ^ k) :
    (serialize (s.toNat * 2 ^ k + P) W).head? = some s := by
  subst hW
  rw [serialize_append _ _ hP]; cases s <;> rfl

/-- The last symbol is bit 0. -/
theorem serialize_last (P W : Nat) (hW : 0 < W) : (serialize P W).getLast? = some (P.testBit 0) :=
    by
  induction W with
  | zero => omega
  | succ W ih =>
    rcases Nat.eq_zero_or_pos W with rfl | h
    · simp [serialize]
    · rw [serialize, List.getLast?_cons, ih h]; rfl

/-- A field of ones. -/
theorem serialize_ones (E : Nat) : serialize (2 ^ E - 1) E = List.replicate E true := by
  have : uint (List.replicate E true) = 2 ^ E - 1 := by
    have := (uint_eq_ones (xs := List.replicate E true)).mpr (by simp)
    simpa using this
  rw [← this]
  have h := serialize_uint (List.replicate E true)
  simpa using h

/-- The top one of the bits of a number, as the number above the others. -/
theorem toNat_topBit {x n : Nat} (h : x < 2 * n) : (decide (n ≤ x)).toNat = x / n := by
  have hn : 0 < n := by omega
  by_cases c : n ≤ x
  · rw [decide_eq_true c]; exact (Nat.div_eq_of_lt_le (by simpa using c) (by simpa using h)).symm
  · rw [decide_eq_false c]; exact (Nat.div_eq_of_lt (not_le.mp c)).symm

theorem abs_signed (s : Symbol) (a : ℚ) : |signed s a| = |a| := by cases s <;> simp [signed]

theorem magnitude_signed (s : Symbol) {a : ℚ} (h : 0 < a) : magnitude (signed s a) = a := by
  rw [magnitude_eq_abs, abs_signed, abs_of_pos h]

theorem signOf_signed (s : Symbol) {a : ℚ} (h : 0 < a) : signOf (signed s a) = s := by
  cases s <;> simp [signed, signOf, h, h.le]

end Sys2Proof.Machine
end

