-- ==== Sys2Proof/Laws/Rounding.lean ====
section
/-! SUPPORT. What the rounding unit computes. -/

namespace Sys2Proof.Machine

/-- R102: the distance to the rounded integer is at most a half, and exactly a half only when the
integer is even. -/
theorem rneInt_spec {x : ℚ} (hx : 0 ≤ x) :
    |x - rneInt x| ≤ 1 / 2 ∧ (|x - rneInt x| = 1 / 2 → Even (rneInt x)) := by
  have hf0 : 0 ≤ ⌊x⌋ := Int.floor_nonneg.mpr hx
  have hfl : x.floor = ⌊x⌋ := rfl
  have hcast : ((x.floor.toNat : ℕ) : ℚ) = (⌊x⌋ : ℚ) := by
    rw [hfl]; exact_mod_cast Int.toNat_of_nonneg hf0
  have h1 := Int.floor_le x
  have h2 := Int.lt_floor_add_one x
  unfold rneInt
  simp only [hcast]
  split_ifs with c1 c2 c3
  · rw [hcast]
    refine ⟨abs_le.mpr ⟨by linarith, by linarith⟩, fun h => ?_⟩
    rw [abs_of_nonneg (by linarith)] at h; linarith
  · push_cast; rw [hcast]
    refine ⟨abs_le.mpr ⟨by linarith, by linarith⟩, fun h => ?_⟩
    rw [abs_of_nonpos (by linarith)] at h; linarith
  · rw [hcast]
    exact ⟨abs_le.mpr ⟨by linarith, by linarith⟩, fun _ => Nat.even_iff.mpr c3⟩
  · push_cast; rw [hcast]
    refine ⟨abs_le.mpr ⟨by linarith, by linarith⟩, fun _ => ?_⟩
    rw [Nat.even_add_one, Nat.even_iff]; exact c3

/-- A number within less than a half of an integer rounds to it. -/
theorem rneInt_unique {x : ℚ} (hx : 0 ≤ x) {n : ℕ} (h : |x - n| < 1 / 2) : rneInt x = n := by
  have hd := (rneInt_spec hx).1
  have h1 := abs_lt.mp h
  have h2 := abs_le.mp hd
  have hlt : ((rneInt x : ℚ) - n) < 1 := by linarith
  have hgt : -1 < ((rneInt x : ℚ) - n) := by linarith
  have hlt' : ((rneInt x : Int) - n) < 1 := by exact_mod_cast hlt
  have hgt' : -1 < ((rneInt x : Int) - n) := by exact_mod_cast hgt
  omega

@[simp] theorem rneInt_natCast (n : ℕ) : rneInt (n : ℚ) = n :=
  rneInt_unique (Nat.cast_nonneg n) (by simp)

/-- An even number of whole units may be taken out before rounding. -/
theorem rneInt_shift (k c d : Nat) (hk : Even k) (hd : 0 < d): rneInt (((k * d + c : ℕ) : ℚ) / d) =
    k + rneInt ((c : ℚ) / d) := by
  have hdq : (0:ℚ) < d := by exact_mod_cast hd
  have e : ((k * d + c : ℕ) : ℚ) / d = k + (c:ℚ) / d := by push_cast; field_simp
  rw [e]
  have hx : 0 ≤ (c:ℚ) / d := by positivity
  obtain ⟨h1, h2⟩ := rneInt_spec hx
  set x := (c:ℚ)/d
  have hx' : 0 ≤ (k:ℚ) + x := by positivity
  obtain ⟨g1, g2⟩ := rneInt_spec hx'
  by_contra hne
  have t : (1:ℚ) ≤ |((rneInt (k + x) : ℕ) : ℚ) - (k + rneInt x)| := by
    have : (1:ℤ) ≤ |(rneInt (k + x) : ℤ) - (k + rneInt x)| := Int.one_le_abs (by omega)
    exact_mod_cast this
  have t2 : |((rneInt (k + x) : ℕ) : ℚ) - (k + rneInt x)| ≤ |(k:ℚ) + x - rneInt
      (k + x)| + |x - rneInt x| := by
    rw [abs_sub_comm ((k:ℚ) + x), show x - (rneInt x : ℚ) = (k:ℚ) + x - (k + rneInt x) by ring]
    exact abs_sub_le _ _ _
  have e1 : |(k:ℚ) + x - rneInt (k + x)| = 1/2 := by linarith
  have e2 : |x - rneInt x| = 1/2 := by linarith
  have ev1 := g2 e1
  have ev2 := hk.add (h2 e2)
  have le : |((rneInt (k + x) : ℕ) : ℚ) - (k + rneInt x)| ≤ 1 := by linarith
  have le' : |(rneInt (k + x) : ℤ) - (k + rneInt x)| ≤ 1 := by exact_mod_cast le
  have := abs_le.mp le'
  rw [Nat.even_iff] at ev1 ev2
  omega

/-- Rounding a quotient by an even divisor, in whole numbers: the quotient, and one more when the
remainder is over half, or is half and the quotient odd. -/
theorem rneInt_div (c d : Nat) (hd : 0 < d) : rneInt ((c : ℚ) / (2 * d : ℕ)) =
    c / (2*d) + if d < c % (2*d) ∨ (c % (2*d) = d ∧ c / (2*d) % 2 = 1) then 1 else 0 := by
  have hdq : (0:ℚ) < d := by exact_mod_cast hd
  have hdm := Nat.div_add_mod c (2 * d)
  have hlt := Nat.mod_lt c (show 0 < 2 * d by omega)
  set u := c / (2*d)
  set l := c % (2*d)
  have hx : (c:ℚ) / (2 * d : ℕ) = u + l / (2 * d) := by
    rw [← hdm]; push_cast; field_simp
  rw [hx]
  have hx0 : 0 ≤ (u:ℚ) + l / (2*d) := by positivity
  obtain ⟨h1, h2⟩ := rneInt_spec hx0
  by_cases hc : l = d
  · -- tie
    have hl : (l:ℚ) / (2 * d) = 1/2 := by rw [hc]; field_simp
    rw [hl] at h1 h2 hx0 ⊢
    have ev : Even (rneInt ((u:ℚ) + 1/2)) := by
      apply h2
      have a := abs_le.mp h1
      set r := rneInt ((u:ℚ) + 1/2)
      have b1 : ((r:ℤ):ℚ) ≤ u + 1 := by push_cast; linarith
      have b2 : (u:ℚ) ≤ ((r:ℤ):ℚ) := by push_cast; linarith
      have b1' : (r:ℤ) ≤ u + 1 := by exact_mod_cast b1
      have b2' : (u:ℤ) ≤ r := by exact_mod_cast b2
      have : r = u ∨ r = u + 1 := by omega
      rcases this with h | h
      · rw [h]; norm_num
      · rw [h]; push_cast; rw [abs_of_neg (by linarith)]; ring
    have a := abs_le.mp h1
    set r := rneInt ((u:ℚ) + 1/2)
    have b1 : ((r:ℤ):ℚ) ≤ u + 1 := by push_cast; linarith
    have b2 : (u:ℚ) ≤ ((r:ℤ):ℚ) := by push_cast; linarith
    have b1' : (r:ℤ) ≤ u + 1 := by exact_mod_cast b1
    have b2' : (u:ℤ) ≤ r := by exact_mod_cast b2
    rw [Nat.even_iff] at ev
    split_ifs <;> omega
  · by_cases h : d < l
    · rw [if_pos (.inl h)]
      apply rneInt_unique hx0
      have : (d:ℚ) < l := by exact_mod_cast h
      have : (l:ℚ) < 2 * d := by exact_mod_cast hlt
      have e : (u:ℚ) + l / (2*d) - ((u + 1 : ℕ):ℚ) = (l - 2 * d) / (2 * d) :=
          by push_cast; field_simp; ring
      rw [e, abs_lt]; constructor
      · rw [lt_div_iff₀ (by positivity)]; linarith
      · rw [div_lt_iff₀ (by positivity)]; linarith
    · rw [if_neg (by omega), Nat.add_zero]
      apply rneInt_unique hx0
      have : (l:ℚ) < d := by exact_mod_cast (by omega)
      have : (0:ℚ) ≤ l := by positivity
      have e : (u:ℚ) + l / (2*d) - u = l / (2 * d) := by ring
      rw [e, abs_lt]; constructor
      · rw [lt_div_iff₀ (by positivity)]; linarith
      · rw [div_lt_iff₀ (by positivity)]; linarith

/-- R107 in whole numbers: the upper half, and one more when the lower half is over `0x8000`, or is
`0x8000` and the upper half odd. -/
theorem narrow16_toNat (P32 : BitVec 32) :
    (narrow16 P32).toNat = (P32.toNat / 2 ^ 16 +
      if 2 ^ 15 < P32.toNat % 2 ^ 16 ∨
        (P32.toNat % 2 ^ 16 = 2 ^ 15 ∧ P32.toNat / 2 ^ 16 % 2 = 1) then 1 else 0) % 2 ^ 16 := by
  have hu : (P32.extractLsb' 16 16).toNat = P32.toNat / 2 ^ 16 := by
    rw [BitVec.extractLsb'_toNat, Nat.shiftRight_eq_div_pow]
    exact Nat.mod_eq_of_lt (by have := P32.isLt; omega)
  have hl : (P32.extractLsb' 0 16).toNat = P32.toNat % 2 ^ 16 := by
    rw [BitVec.extractLsb'_toNat, Nat.shiftRight_zero]
  have hrb : (P32.extractLsb' 0 16).getLsbD 15 = decide (2 ^ 15 ≤ P32.toNat % 2 ^ 16) := by
    rw [BitVec.getLsbD, hl, Nat.testBit_eq_decide_div_mod_eq]
    have := Nat.mod_lt P32.toNat (show 0 < 2 ^ 16 by norm_num)
    rw [decide_eq_decide]; omega
  have hrem : (P32.extractLsb' 0 16 &&& 0x7FFF#16 ≠ 0#16) ↔ P32.toNat % 2 ^ 16 % 2 ^ 15 ≠ 0 := by
    rw [ne_eq, ← BitVec.toNat_inj, BitVec.toNat_and, hl,
      show (0x7FFF#16).toNat = 2 ^ 15 - 1 from rfl, Nat.and_two_pow_sub_one_eq_mod]
    rfl
  have hev : (P32.extractLsb' 16 16).getLsbD 0 = decide (P32.toNat / 2 ^ 16 % 2 = 1) := by
    rw [BitVec.getLsbD, hu, Nat.testBit_zero]
  have hlt := Nat.mod_lt P32.toNat (show 0 < 2 ^ 16 by norm_num)
  simp only [narrow16, hrb, hev, BitVec.toNat_add, hu, hrem]
  by_cases c1 : 2 ^ 15 ≤ P32.toNat % 2 ^ 16
  · by_cases c2 : P32.toNat % 2 ^ 16 % 2 ^ 15 ≠ 0
    · rw [if_pos (by simpa using c1), if_pos c2, if_pos (by omega)]; rfl
    · by_cases c3 : P32.toNat / 2 ^ 16 % 2 = 1
      · rw [if_pos (by simpa using c1), if_neg c2, if_pos (by omega), decide_eq_true c3]; rfl
      · rw [if_pos (by simpa using c1), if_neg c2, if_neg (by omega), decide_eq_false c3]; rfl
  · rw [if_neg (by simpa using c1), if_neg (by omega)]; rfl

/-! ### Magnitudes: what the bits below the sign stand for -/

/-- The number the magnitude bits `P` of a pattern stand for (R175, R178), all exponent fields but 0
read as normal. -/
def magnitudeOf (M bias P : Nat) : ℚ :=
  if P < 2 ^ M then P * (2 : ℚ) ^ (1 - (bias : ℤ) - M)
  else ((2 ^ M + P % 2 ^ M : Nat) : ℚ) * (2 : ℚ) ^ ((P / 2 ^ M : Nat) - (bias : ℤ) - M)

/-- On one binade, and on the subnormals, the magnitudes are the multiples of one spacing. -/
theorem magnitudeOf_grid {M bias k n : Nat} (hn : n ≤ 2 ^ (M + 1)) (hk : k = 0 ∨ 2 ^ M ≤ n) :
    magnitudeOf M bias (k * 2 ^ M + n) = n * (2 : ℚ) ^ ((k : ℤ) + 1 - bias - M) := by
  have hM : 0 < 2 ^ M := by positivity
  have h2 : (2:ℚ) ≠ 0 := by norm_num
  rw [pow_succ] at hn
  unfold magnitudeOf
  split_ifs with h
  · have hk0 : k = 0 := by
      rcases hk with hk | hk
      · exact hk
      · omega
    subst hk0; simp
  · have hge : 2 ^ M ≤ n := by
      rcases hk with rfl | hk
      · simpa using h
      · exact hk
    obtain ⟨m, rfl⟩ := Nat.exists_eq_add_of_le hge
    have hdec : k * 2 ^ M + (2 ^ M + m) = (k + 1) * 2 ^ M + m := by ring
    rw [hdec]
    by_cases hm : m < 2 ^ M
    · have hq : ((k + 1) * 2 ^ M + m) / 2 ^ M = k + 1 := by
        rw [Nat.mul_comm, Nat.mul_add_div hM, Nat.div_eq_of_lt hm, Nat.add_zero]
      have hr : ((k + 1) * 2 ^ M + m) % 2 ^ M = m := by
        rw [Nat.mul_comm, Nat.mul_add_mod, Nat.mod_eq_of_lt hm]
      rw [hq, hr]; push_cast; rfl
    · have hm' : m = 2 ^ M := by omega
      subst hm'
      have hq : ((k + 1) * 2 ^ M + 2 ^ M) / 2 ^ M = k + 2 := by
        rw [show (k + 1) * 2 ^ M + 2 ^ M = 2 ^ M * (k + 2) by ring, Nat.mul_div_cancel_left _ hM]
      have hr : ((k + 1) * 2 ^ M + 2 ^ M) % 2 ^ M = 0 := by
        rw [show (k + 1) * 2 ^ M + 2 ^ M = 2 ^ M * (k + 2) by ring, Nat.mul_mod_right]
      rw [hq, hr]; push_cast
      rw [show (k:ℤ) + 2 - bias - M = ((k:ℤ) + 1 - bias - M) + 1 by ring, zpow_add₀ h2]
      ring

/-- Every magnitude lies on the grid of its own exponent field. -/
theorem magnitudeOf_eq (M bias P : Nat) : ∃ k n : Nat, P = k * 2 ^ M + n ∧ n < 2 ^ (M + 1) ∧
    (k = 0 ∨ 2 ^ M ≤ n) ∧ magnitudeOf M bias P = n * (2 : ℚ) ^ ((k : ℤ) + 1 - bias - M) := by
  have hM : 0 < 2 ^ M := by positivity
  rcases Nat.lt_or_ge P (2 ^ M) with h | h
  · exact ⟨0, P, by simp, by rw [pow_succ]; omega, .inl rfl, by simp [magnitudeOf, h]⟩
  · have h1 : 1 ≤ P / 2 ^ M := (Nat.one_le_div_iff hM).mpr h
    have hlt := Nat.mod_lt P hM
    have hdm := Nat.div_add_mod P (2 ^ M)
    refine ⟨P / 2 ^ M - 1, 2 ^ M + P % 2 ^ M, ?_, by rw [pow_succ]; omega, .inr (by omega), ?_⟩
    · obtain ⟨c, hc⟩ := Nat.exists_eq_add_of_le h1
      rw [hc, Nat.add_sub_cancel_left]
      rw [hc] at hdm
      nlinarith
    · rw [magnitudeOf, if_neg (by omega)]
      congr 2
      push_cast [h1]
      omega


/-- R174 to R178 read with the pattern's magnitude: below the infinity pattern a pattern is a zero
    or
the signed magnitude. -/
theorem valueOfFields_magnitude {E M bias P : Nat} (s : Symbol) (hP : P < (2 ^ E - 1) * 2 ^ M) :
    valueOfFields E M bias s (P / 2 ^ M) (P % 2 ^ M) =
      if P = 0 then .zero s else .fin (signed s (magnitudeOf M bias P)) := by
  have hM : 0 < 2 ^ M := by positivity
  have h2 : (2:ℚ) ≠ 0 := by norm_num
  have hx : P / 2 ^ M ≠ 2 ^ E - 1 := by
    have := (Nat.div_lt_iff_lt_mul hM).mpr hP; omega
  have hdm := Nat.div_add_mod P (2 ^ M)
  unfold valueOfFields
  rcases Nat.lt_or_ge P (2 ^ M) with h | h
  · have h0 : P / 2 ^ M = 0 := Nat.div_eq_of_lt h
    rw [if_pos h0, Nat.mod_eq_of_lt h]
    by_cases hz : P = 0
    · simp [hz]
    · rw [if_neg hz, if_neg hz, magnitudeOf, if_pos h]
      congr 2
      rw [pow2_eq_zpow, pow2_eq_zpow, zpow_sub₀ h2 _ (M:ℤ)]; ring
  · have h0 : P / 2 ^ M ≠ 0 := by
      have := (Nat.one_le_div_iff hM).mpr h; omega
    rw [if_neg h0, if_neg hx, if_neg (by omega), magnitudeOf, if_neg (by omega)]
    congr 2
    rw [pow2_eq_zpow, pow2_eq_zpow, zpow_sub₀ h2 _ (M:ℤ)]
    push_cast
    rw [zpow_natCast]
    field_simp

/-- The infinity pattern and the NaN patterns. -/
theorem valueOfFields_special {E M bias m : Nat} (s : Symbol) (hE : 0 < E) :
    valueOfFields E M bias s (2 ^ E - 1) m = if m = 0 then .inf s else .nan := by
  have : 2 ^ E - 1 ≠ 0 := by
    have : 2 ^ 1 ≤ 2 ^ E := Nat.pow_le_pow_right (by norm_num) hE
    omega
  simp [valueOfFields, this]

theorem magnitudeOf_pos {M bias P : Nat} (hP : P ≠ 0) : 0 < magnitudeOf M bias P := by
  obtain ⟨k, n, rfl, -, hk, he⟩ := magnitudeOf_eq M bias P
  rw [he]
  have : 0 < n := by
    rcases hk with rfl | hk
    · omega
    · exact lt_of_lt_of_le (by positivity) hk
  have : (0:ℚ) < n := by exact_mod_cast this
  positivity

/-- R103 said once: the scale `k`, the rounded count `n` of units in the last place,
    and the pattern,
with the overflow of R105. -/
theorem roundToFormat_spec {a : ℚ} (ha : 0 < a) (s : Symbol) {E M bias : Nat}
    (hb : bias = 2 ^ (E - 1) - 1) :
    ∃ k n : Nat, n = rneInt (a / (2 : ℚ) ^ ((k : ℤ) + 1 - bias - M)) ∧ n ≤ 2 ^ (M + 1) ∧
      (k = 0 ∨ 2 ^ M ≤ n) ∧
      (k = 0 ∨ (2 : ℚ) ^ ((k : ℤ) + 1 - bias) ≤ a) ∧ a < (2 : ℚ) ^ ((k : ℤ) + 2 - bias) ∧
      roundToFormat s a E M =
        s.toNat * 2 ^ (E + M) + min (k * 2 ^ M + n) ((2 ^ E - 1) * 2 ^ M) := by
  have h2 : (2:ℚ) ≠ 0 := by norm_num
  obtain ⟨g1, g2⟩ := floorLog2_spec ha
  have hbi : ((2:ℤ) ^ (E - 1) - 1) = (bias : ℤ) := by
    subst hb
    have : 1 ≤ 2 ^ (E - 1) := Nat.one_le_two_pow
    push_cast [this]; rfl
  obtain ⟨k, hk⟩ : ∃ k : Nat, max (floorLog2 a) (1 - (bias:ℤ)) = (k : ℤ) + 1 - bias :=
    ⟨(max (floorLog2 a) (1 - (bias:ℤ)) - (1 - bias)).toNat, by
      rw [Int.toNat_of_nonneg (by have := le_max_right (floorLog2 a) (1 - (bias:ℤ)); omega)]; ring⟩
  have hlt : a < (2 : ℚ) ^ ((k : ℤ) + 2 - bias) :=
    lt_of_lt_of_le g2 (zpow_le_zpow_right₀ (by norm_num)
      (by have := le_max_left (floorLog2 a) (1 - (bias:ℤ)); omega))
  have hge : k = 0 ∨ (2 : ℚ) ^ ((k : ℤ) + 1 - bias) ≤ a := by
    rcases max_choice (floorLog2 a) (1 - (bias:ℤ)) with h | h
    · right; rw [← hk, h]; exact g1
    · left; omega
  have hx0 : 0 ≤ a / (2 : ℚ) ^ ((k : ℤ) + 1 - bias - M) := by positivity
  have hsp := (rneInt_spec hx0).1
  have hu : (0:ℚ) < (2 : ℚ) ^ ((k : ℤ) + 1 - bias - M) := by positivity
  have hx1 : a / (2 : ℚ) ^ ((k : ℤ) + 1 - bias - M) < 2 ^ (M + 1) := by
    rw [div_lt_iff₀ hu, ← zpow_natCast, ← zpow_add₀ h2,
      show ((M + 1 : ℕ) : ℤ) + ((k : ℤ) + 1 - bias - M) = k + 2 - bias by push_cast; ring]
    exact hlt
  refine ⟨k, _, rfl, ?_, ?_, hge, hlt, ?_⟩
  · have h3 := (abs_le.mp hsp).1
    have : ((rneInt (a / (2 : ℚ) ^ ((k : ℤ) + 1 - bias - M)) : ℕ) : ℚ) < ((2 ^
        (M + 1) + 1 : ℕ) : ℚ) := by
      push_cast; linarith
    have : rneInt (a / (2 : ℚ) ^ ((k : ℤ) + 1 - bias - M)) < 2 ^ (M + 1) + 1 :=
        by exact_mod_cast this
    omega
  · rcases hge with h | h
    · exact .inl h
    · right
      have hx2 : (2:ℚ) ^ M ≤ a / (2 : ℚ) ^ ((k : ℤ) + 1 - bias - M) := by
        rw [le_div_iff₀ hu, ← zpow_natCast, ← zpow_add₀ h2,
          show (M : ℤ) + ((k : ℤ) + 1 - bias - M) = k + 1 - bias by ring]
        exact h
      have h3 := (abs_le.mp hsp).2
      have : ((2 ^ M : ℕ) : ℚ) < ((rneInt (a / (2 : ℚ) ^ ((k : ℤ) + 1 - bias - M)) + 1 : ℕ) : ℚ) :=
          by
        push_cast; linarith
      have : 2 ^ M < rneInt (a / (2 : ℚ) ^ ((k : ℤ) + 1 - bias - M)) + 1 := by exact_mod_cast this
      omega
  · simp only [roundToFormat, hbi, hk, pow2_eq_zpow]
    have : ((k:ℤ) + 1 - bias - (1 - bias)).toNat = k := by omega
    rw [this, min_def]
    congr 1
    split_ifs <;> omega

/-- A magnitude of the format rounds to its own pattern. -/
theorem roundToFormat_magnitudeOf {E M bias P : Nat} (s : Symbol) (hb : bias = 2 ^ (E - 1) - 1)
    (hP0 : P ≠ 0) (hP : P < (2 ^ E - 1) * 2 ^ M) :
    roundToFormat s (magnitudeOf M bias P) E M = s.toNat * 2 ^ (E + M) + P := by
  have h2 : (2:ℚ) ≠ 0 := by norm_num
  have h1 : (1:ℚ) < 2 := by norm_num
  obtain ⟨k', n', hn', -, -, hge, hlt, hr⟩ := roundToFormat_spec (magnitudeOf_pos (M := M) (bias :=
      bias) hP0) s (E := E) (M := M) hb
  obtain ⟨k, n, hPk, hn, hk, he⟩ := magnitudeOf_eq M bias P
  have hupper : magnitudeOf M bias P < (2:ℚ) ^ ((k : ℤ) + 2 - bias) := by
    rw [he]
    calc (n:ℚ) * (2 : ℚ) ^ ((k : ℤ) + 1 - bias - M) < ((2 ^ (M+1) : ℕ) : ℚ) * (2 : ℚ) ^
        ((k : ℤ) + 1 - bias - M) := by
          gcongr
      _ = _ := by
          push_cast; rw [← zpow_natCast, ← zpow_add₀ h2]; congr 1; push_cast; ring
  have hlower : k = 0 ∨ (2:ℚ) ^ ((k : ℤ) + 1 - bias) ≤ magnitudeOf M bias P := by
    rcases hk with h | h
    · exact .inl h
    · right
      rw [he]
      calc (2:ℚ) ^ ((k : ℤ) + 1 - bias) = ((2 ^ M : ℕ) : ℚ) * (2 : ℚ) ^ ((k : ℤ) + 1 - bias - M) :=
          by
            push_cast; rw [← zpow_natCast, ← zpow_add₀ h2]; congr 1; ring
        _ ≤ _ := by gcongr
  have hkk : k' = k := by
    apply le_antisymm
    · rcases hge with h | h
      · omega
      · have := (zpow_lt_zpow_iff_right₀ h1).mp (lt_of_le_of_lt h hupper); omega
    · rcases hlower with h | h
      · omega
      · have := (zpow_lt_zpow_iff_right₀ h1).mp (lt_of_le_of_lt h hlt); omega
  subst hkk
  have : n' = n := by
    rw [hn', he, mul_div_assoc, div_self (by positivity), mul_one, rneInt_natCast]
  rw [hr, this, ← hPk, min_eq_left hP.le]

/-- A greater pattern stands for a greater magnitude. -/
theorem magnitudeOf_mono_succ (M bias P : Nat) :
    magnitudeOf M bias P < magnitudeOf M bias (P + 1) := by
  obtain ⟨k, n, rfl, hn, hk, he⟩ := magnitudeOf_eq M bias P
  rw [he, Nat.add_assoc, magnitudeOf_grid (by omega) (hk.imp_right fun h => by omega)]
  gcongr; linarith

theorem magnitudeOf_mono (M bias : Nat) : StrictMono (magnitudeOf M bias) :=
    strictMono_nat_of_lt_succ (magnitudeOf_mono_succ M bias)

/-- Rounding a magnitude of `d` more mantissa bits is rounding away the last `d` bits of its
    pattern. -/
theorem roundToFormat_drop {E M d bias P : Nat} (s : Symbol) (hb : bias = 2 ^ (E - 1) - 1)
    (hM : 0 < M) (hP : P ≠ 0) :
    roundToFormat s (magnitudeOf (M + d) bias P) E M =
      s.toNat * 2 ^ (E + M) + min (rneInt ((P : ℚ) / (2 ^ d : ℕ))) ((2 ^ E - 1) * 2 ^ M) := by
  have h2 : (2:ℚ) ≠ 0 := by norm_num
  have h1 : (1:ℚ) < 2 := by norm_num
  obtain ⟨k', n', hn', -, -, hge, hlt', hr⟩ :=
    roundToFormat_spec (magnitudeOf_pos (M := M + d) (bias := bias) hP) s (E := E) (M := M) hb
  obtain ⟨k, n, hPk, hn, hk, he⟩ := magnitudeOf_eq (M + d) bias P
  have hupper : magnitudeOf (M + d) bias P < (2:ℚ) ^ ((k : ℤ) + 2 - bias) := by
    rw [he, show (k : ℤ) + 2 - bias = ((M + d + 1 : ℕ) : ℤ) + ((k : ℤ) + 1 - bias - (M + d : ℕ)) by
      push_cast; ring, zpow_add₀ h2, zpow_natCast]
    gcongr; exact_mod_cast hn
  have hlower : k = 0 ∨ (2:ℚ) ^ ((k : ℤ) + 1 - bias) ≤ magnitudeOf (M + d) bias P := by
    refine hk.imp_right fun h => ?_
    rw [he, show (k : ℤ) + 1 - bias = ((M + d : ℕ) : ℤ) + ((k : ℤ) + 1 - bias - (M + d : ℕ)) by
      ring, zpow_add₀ h2, zpow_natCast, show ((M + d : ℕ) : ℤ) + ((k : ℤ) + 1 - bias -
          (M + d : ℕ)) - (M + d : ℕ) = (k : ℤ) + 1 - bias - (M + d : ℕ) by ring]
    gcongr; exact_mod_cast h
  have hkk : k' = k := by
    apply le_antisymm
    · rcases hge with h | h
      · omega
      · have := (zpow_lt_zpow_iff_right₀ h1).mp (lt_of_le_of_lt h hupper); omega
    · rcases hlower with h | h
      · omega
      · have := (zpow_lt_zpow_iff_right₀ h1).mp (lt_of_le_of_lt h hlt'); omega
  subst hkk
  have hsc : magnitudeOf (M + d) bias P / (2:ℚ) ^ ((k' : ℤ) + 1 - bias - M) = (n:ℚ) / (2 ^ d : ℕ) :=
      by
    rw [he, div_eq_div_iff (by positivity) (by positivity), mul_assoc]
    congr 1
    rw [show (k':ℤ) + 1 - bias - M = (k' + 1 - bias - (M + d : ℕ)) + (d : ℕ) by push_cast; ring,
      zpow_add₀ h2, zpow_natCast]
    push_cast; rfl
  have hev : Even (k' * 2 ^ M) := (Nat.even_pow.mpr ⟨even_two, hM.ne'⟩).mul_left _
  rw [hr, hn', hsc, ← rneInt_shift (k' * 2 ^ M) n (2 ^ d) hev (by positivity), hPk, pow_add 2 M d,
    ← mul_assoc]

/-- The infinity pattern lies below the sign bit. -/
theorem infinity_lt (E M : Nat) : (2 ^ E - 1) * 2 ^ M < 2 ^ (E + M) := by
  have : 0 < 2 ^ M := by positivity
  have : 1 ≤ 2 ^ E := Nat.one_le_two_pow
  rw [pow_add];
  obtain ⟨c, hc⟩ := Nat.exists_eq_add_of_le this
  rw [hc, Nat.add_sub_cancel_left]; nlinarith

/-- R105: the threshold at and beyond which a magnitude becomes the infinity. -/
theorem overflow_iff {a : ℚ} (ha : 0 < a) (s : Symbol) {E M bias : Nat} (hb : bias =
    2 ^ (E - 1) - 1) (hE : 2 ≤ E) :
    (s.toNat * 2 ^ (E + M) + (2 ^ E - 1) * 2 ^ M ≤ roundToFormat s a E M) ↔
        (2:ℚ) ^ (bias:ℤ) * (2 - 2 ^ (-(M:ℤ) - 1)) ≤ a := by
  have h2 : (2:ℚ) ≠ 0 := by norm_num
  have h1 : (1:ℚ) < 2 := by norm_num
  obtain ⟨k, n, hn, hn2, hk, hge, hlt, hr⟩ := roundToFormat_spec ha s (E := E) (M := M) hb
  have hp : 2 ^ E = 2 * (bias + 1) := by
    obtain ⟨e, rfl⟩ := Nat.exists_eq_add_of_le' hE
    have : 1 ≤ 2 ^ (e + 1) := Nat.one_le_two_pow
    rw [hb, show e + 2 - 1 = e + 1 by omega, Nat.sub_add_cancel this, pow_succ]; ring
  have hb1 : 1 ≤ bias := by
    have : 2 ^ 2 ≤ 2 ^ E := Nat.pow_le_pow_right (by norm_num) hE
    omega
  have hM : 0 < 2 ^ M := by positivity
  have hpinf : (2 ^ E - 1) * 2 ^ M = 2 * bias * 2 ^ M + 2 ^ M := by
    rw [hp, show 2 * (bias + 1) - 1 = 2 * bias + 1 by omega]; ring
  rw [hr, hpinf, Nat.add_le_add_iff_left, le_min_iff]
  have hx0 : 0 ≤ a / (2 : ℚ) ^ ((k : ℤ) + 1 - bias - M) := by positivity
  have hu : (0:ℚ) < (2 : ℚ) ^ ((k : ℤ) + 1 - bias - M) := by positivity
  obtain ⟨hs1, hs2⟩ := rneInt_spec hx0
  rw [← hn] at hs1 hs2
  set x := a / (2 : ℚ) ^ ((k : ℤ) + 1 - bias - M) with hx
  have hax : a = x * (2 : ℚ) ^ ((k : ℤ) + 1 - bias - M) := by rw [hx, div_mul_cancel₀ _ hu.ne']
  have hthr : (2:ℚ) ^ (bias:ℤ) * (2 - 2 ^ (-(M:ℤ) - 1)) =
      ((2 ^ (M + 1) : ℕ) - 1 / 2) * (2:ℚ) ^ ((bias:ℤ) - M) := by
    push_cast
    rw [mul_sub, sub_mul]
    congr 1
    · rw [pow_succ, mul_assoc, mul_comm (2:ℚ) (2 ^ ((bias:ℤ) - M)), ← mul_assoc, ← zpow_natCast,
        ← zpow_add₀ h2]; congr 2; ring
    · rw [← zpow_add₀ h2, one_div, ← zpow_neg_one, ← zpow_add₀ h2]; congr 1; ring
  have hs := abs_le.mp hs1
  constructor
  · rintro ⟨h, -⟩
    by_contra hc
    push Not at hc
    have hk1 : k + 1 ≤ 2 * bias := by
      rcases hge with h0 | h0
      · omega
      · have : (2:ℚ) ^ ((k:ℤ) + 1 - bias) < 2 ^ ((bias:ℤ) + 1) := by
          refine lt_of_le_of_lt h0 (hc.trans ?_)
          rw [zpow_add₀ h2, zpow_one]
          have : (0:ℚ) < 2 ^ (-(M:ℤ) - 1) := by positivity
          have : (0:ℚ) < 2 ^ (bias:ℤ) := by positivity
          nlinarith
        have := (zpow_lt_zpow_iff_right₀ h1).mp this
        omega
    rcases Nat.lt_or_ge (k + 1) (2 * bias) with h3 | h3
    · have : k * 2 ^ M + n ≤ (2 * bias - 2) * 2 ^ M + 2 ^ (M + 1) :=
        Nat.add_le_add (Nat.mul_le_mul_right _ (by omega)) hn2
      have e : (2 * bias - 2) * 2 ^ M + 2 ^ (M + 1) = 2 * bias * 2 ^ M := by
        obtain ⟨c, rfl⟩ := Nat.exists_eq_add_of_le hb1
        rw [show 2 * (1 + c) - 2 = 2 * c by omega, pow_succ]; ring
      omega
    · have hkb : k + 1 = 2 * bias := by omega
      have hexp : (k:ℤ) + 1 - bias - M = bias - M := by omega
      rw [hthr, hax, hexp] at hc
      have hxlt := lt_of_mul_lt_mul_right hc (by positivity)
      have : (n:ℚ) < (2 ^ (M + 1) : ℕ) := by linarith [hs.1]
      have : n < 2 ^ (M + 1) := by exact_mod_cast this
      rw [← hkb, pow_succ] at *
      nlinarith
  · intro h
    refine ⟨?_, le_rfl⟩
    have hk1 : 2 * bias ≤ k + 1 := by
      have : (2:ℚ) ^ (bias:ℤ) < 2 ^ ((k:ℤ) + 2 - bias) := by
        refine lt_of_le_of_lt ?_ (lt_of_le_of_lt h hlt)
        have h3 : (2:ℚ) ^ (-(M:ℤ) - 1) ≤ 2 ^ (0:ℤ) := zpow_le_zpow_right₀ h1.le (by omega)
        rw [zpow_zero] at h3
        have : (0:ℚ) < 2 ^ (bias:ℤ) := by positivity
        nlinarith
      have := (zpow_lt_zpow_iff_right₀ h1).mp this
      omega
    rcases Nat.lt_or_ge (k + 1) (2 * bias + 1) with h3 | h3
    · have hkb : k + 1 = 2 * bias := by omega
      have hexp : (k:ℤ) + 1 - bias - M = bias - M := by omega
      rw [hthr, hax, hexp] at h
      have hxge := le_of_mul_le_mul_right h (by positivity)
      have hn3 : 2 ^ (M + 1) ≤ n := by
        by_contra hc
        have h4 : ((n + 1 : ℕ) : ℚ) ≤ ((2 ^ (M + 1) : ℕ) : ℚ) := by exact_mod_cast (by omega)
        push_cast at h4 hxge
        have h5 : x - n = 1 / 2 := by linarith [hs.2]
        have hev := hs2 (by rw [h5]; norm_num)
        have h6 : n + 1 = 2 ^ (M + 1) := by
          have : ((n + 1 : ℕ) : ℚ) = ((2 ^ (M + 1) : ℕ) : ℚ) := by push_cast; linarith
          exact_mod_cast this
        have : Even (n + 1) := by rw [h6, Nat.even_pow]; exact ⟨even_two, by omega⟩
        rw [Nat.even_add_one] at this
        exact this hev
      have : k * 2 ^ M + 2 ^ M = 2 * bias * 2 ^ M := by rw [← hkb]; ring
      rw [pow_succ] at hn3
      omega
    · have hk0 : k ≠ 0 := by omega
      have := hk.resolve_left hk0
      have : 2 * bias * 2 ^ M ≤ k * 2 ^ M := Nat.mul_le_mul_right _ (by omega)
      omega

/-- The threshold up to which a magnitude becomes the zero. -/
theorem underflow_iff {a : ℚ} (ha : 0 < a) (s : Symbol) {E M bias : Nat} (hb : bias =
    2 ^ (E - 1) - 1) (hE : 2 ≤ E) :
    roundToFormat s a E M = s.toNat * 2 ^ (E + M) ↔ a ≤ (2:ℚ) ^ (-(bias:ℤ) - M) := by
  have h2 : (2:ℚ) ≠ 0 := by norm_num
  have h1 : (1:ℚ) < 2 := by norm_num
  obtain ⟨k, n, hn, hn2, hk, hge, hlt, hr⟩ := roundToFormat_spec ha s (E := E) (M := M) hb
  have hM : 0 < 2 ^ M := by positivity
  have hpinf : 0 < (2 ^ E - 1) * 2 ^ M := by
    have : 2 ^ 2 ≤ 2 ^ E := Nat.pow_le_pow_right (by norm_num) hE
    exact Nat.mul_pos (by omega) hM
  have hx0 : 0 ≤ a / (2 : ℚ) ^ ((k : ℤ) + 1 - bias - M) := by positivity
  have hu : (0:ℚ) < (2 : ℚ) ^ ((k : ℤ) + 1 - bias - M) := by positivity
  obtain ⟨hs1, hs2⟩ := rneInt_spec hx0
  rw [← hn] at hs1 hs2
  set x := a / (2 : ℚ) ^ ((k : ℤ) + 1 - bias - M) with hx
  have hax : a = x * (2 : ℚ) ^ ((k : ℤ) + 1 - bias - M) := by rw [hx, div_mul_cancel₀ _ hu.ne']
  have hs := abs_le.mp hs1
  have hhalf : (2:ℚ) ^ (-(bias:ℤ) - M) = 1/2 * (2:ℚ) ^ ((0:ℤ) + 1 - bias - M) := by
    rw [one_div, ← zpow_neg_one, ← zpow_add₀ h2]; congr 1; ring
  have : roundToFormat s a E M = s.toNat * 2 ^ (E + M) ↔ k = 0 ∧ n = 0 := by
    rw [hr]
    constructor
    · intro h
      have : min (k * 2 ^ M + n) ((2 ^ E - 1) * 2 ^ M) = 0 := by omega
      have h3 : k * 2 ^ M + n = 0 := by
        rcases min_choice (k * 2 ^ M + n) ((2 ^ E - 1) * 2 ^ M) with h | h <;> omega
      constructor
      · have : k * 2 ^ M = 0 := by omega
        rcases Nat.mul_eq_zero.mp this with h | h <;> omega
      · omega
    · rintro ⟨rfl, h⟩; simp [h]
  rw [this]
  constructor
  · rintro ⟨rfl, h⟩
    rw [h] at hs
    rw [hhalf, hax]
    push_cast
    apply mul_le_mul_of_nonneg_right _ (by positivity)
    push_cast at hs; linarith [hs.2]
  · intro h
    have hk0 : k = 0 := by
      by_contra hc
      have := (zpow_le_zpow_iff_right₀ h1).mp ((hge.resolve_left hc).trans h)
      omega
    subst hk0
    refine ⟨rfl, ?_⟩
    rw [hhalf, hax] at h
    push_cast at h
    have hxle := le_of_mul_le_mul_right h (by positivity)
    by_contra hc
    have h4 : (1:ℚ) ≤ n := by exact_mod_cast Nat.pos_of_ne_zero hc
    have h5 : n - x = 1/2 := by linarith [hs.1]
    have hev := hs2 (by rw [abs_sub_comm, h5]; norm_num)
    have : (n:ℚ) = 1 := by linarith [hs.1]
    have : n = 1 := by exact_mod_cast this
    subst this; exact absurd hev (by decide)

/-- No other magnitude of the format is nearer than the rounded one,
    and one as near loses to even. -/
theorem nearest_mag {a : ℚ} {M bias k n : Nat}
    (hn : n = rneInt (a / (2 : ℚ) ^ ((k : ℤ) + 1 - bias - M))) (h0 : 0 < a)
    (hge : k = 0 ∨ (2 : ℚ) ^ ((k : ℤ) + 1 - bias) ≤ a) (Q : Nat) :
    magnitudeOf M bias Q = n * (2 : ℚ) ^ ((k : ℤ) + 1 - bias - M) ∨
    |a - n * (2 : ℚ) ^ ((k : ℤ) + 1 - bias - M)| < |a - magnitudeOf M bias Q| ∨
    (|a - n * (2 : ℚ) ^ ((k : ℤ) + 1 - bias - M)| = |a - magnitudeOf M bias Q| ∧ Even n) := by
  have h2 : (2:ℚ) ≠ 0 := by norm_num
  have hu : (0:ℚ) < (2 : ℚ) ^ ((k : ℤ) + 1 - bias - M) := by positivity
  have hx0 : 0 ≤ a / (2 : ℚ) ^ ((k : ℤ) + 1 - bias - M) := by positivity
  obtain ⟨hs1, hs2⟩ := rneInt_spec hx0
  rw [← hn] at hs1 hs2
  have key : ∀ j : ℕ, j = n ∨ |a - n * (2 : ℚ) ^ ((k : ℤ) + 1 - bias - M)| < |a - j * (2 : ℚ) ^
      ((k : ℤ) + 1 - bias - M)| ∨ (|a - n * (2 : ℚ) ^ ((k : ℤ) + 1 - bias - M)| =
          |a - j * (2 : ℚ) ^ ((k : ℤ) + 1 - bias - M)| ∧ Even n) := by
    intro j
    by_cases hj : j = n
    · exact .inl hj
    right
    have hsc : ∀ j : ℕ, |a - j * (2 : ℚ) ^ ((k : ℤ) + 1 - bias - M)| =
        |a / (2 : ℚ) ^ ((k : ℤ) + 1 - bias - M) - j| * (2 : ℚ) ^ ((k : ℤ) + 1 - bias - M) := by
      intro j
      rw [← abs_of_pos hu, ← abs_mul, abs_of_pos hu, sub_mul, div_mul_cancel₀ _ hu.ne']
    rw [hsc, hsc]
    set x := a / (2 : ℚ) ^ ((k : ℤ) + 1 - bias - M)
    have : (1:ℚ) ≤ |(n:ℚ) - j| := by
      have : (1:ℤ) ≤ |(n:ℤ) - j| := Int.one_le_abs (by omega)
      exact_mod_cast this
    have t := abs_sub_le (n : ℚ) x j
    rw [abs_sub_comm (n:ℚ) x] at t
    rcases lt_or_eq_of_le hs1 with h | h
    · left; apply mul_lt_mul_of_pos_right _ hu; linarith
    · rcases lt_or_eq_of_le (show 1/2 ≤ |x - j| by linarith) with h' | h'
      · left; apply mul_lt_mul_of_pos_right _ hu; linarith
      · right; exact ⟨by rw [h, h'], hs2 h⟩
  obtain ⟨k', n', hQ, hn', hk', he⟩ := magnitudeOf_eq M bias Q
  by_cases hkk : k ≤ k'
  · obtain ⟨c, rfl⟩ := Nat.exists_eq_add_of_le hkk
    have : magnitudeOf M bias Q = ((n' * 2 ^ c : ℕ) : ℚ) * (2 : ℚ) ^ ((k : ℤ) + 1 - bias - M) := by
      rw [he]; push_cast
      rw [mul_assoc, ← zpow_natCast, ← zpow_add₀ h2]; congr 2; ring
    rw [this]
    rcases key (n' * 2 ^ c) with h | h
    · left; rw [h]
    · exact .inr h
  · -- below the binade
    right; left
    have hk0 : k ≠ 0 := by omega
    have hge' := hge.resolve_left hk0
    have hlt : magnitudeOf M bias Q < ((2 ^ M : ℕ) : ℚ) * (2 : ℚ) ^ ((k : ℤ) + 1 - bias - M) := by
      rw [he]
      calc (n':ℚ) * (2 : ℚ) ^ ((k' : ℤ) + 1 - bias - M) < ((2 ^ (M+1) : ℕ) : ℚ) * (2 : ℚ) ^
          ((k' : ℤ) + 1 - bias - M) := by gcongr
        _ = ((2 ^ M : ℕ) : ℚ) * (2 : ℚ) ^ ((k' : ℤ) + 2 - bias - M) := by
            push_cast
            rw [pow_succ, mul_assoc, show (k':ℤ) + 2 - bias - M = 1 + (k' + 1 - bias - M) by ring,
                zpow_add₀ h2, zpow_one]
        _ ≤ _ := by
            apply mul_le_mul_of_nonneg_left _ (by positivity)
            exact zpow_le_zpow_right₀ (by norm_num) (by omega)
    have h2M : ((2 ^ M : ℕ) : ℚ) * (2 : ℚ) ^ ((k : ℤ) + 1 - bias - M) ≤ a := by
      refine le_trans (le_of_eq ?_) hge'
      push_cast; rw [← zpow_natCast, ← zpow_add₀ h2]; congr 1; ring
    have : |a - ((2 ^ M : ℕ) : ℚ) * (2 : ℚ) ^ ((k : ℤ) + 1 - bias - M)| < |a - magnitudeOf M bias
        Q| := by
      rw [abs_of_nonneg (by linarith), abs_of_nonneg (by linarith)]; linarith
    rcases key (2 ^ M) with h | h | h
    · rw [← h]; exact this
    · exact h.trans this
    · rw [h.1]; exact this

end Sys2Proof.Machine
end

