-- ==== Sys2Proof/Laws/Carrier.lean ====
section
/-! SUPPORT. The 64-bit carrier by sign and magnitude bits, and the header bits of a command. -/

namespace Sys2Proof.Machine

set_option maxRecDepth 4096

/-- R73: a carrier pattern is read by the fields of its magnitude bits. -/
theorem valOfB64_ofNat (s : Symbol) {P : Nat} (hP : P < 2 ^ 63) :
    valOfB64 (BitVec.ofNat 64 (s.toNat * 2 ^ 63 + P)) =
        valueOfFields 11 52 1023 s (P / 2 ^ 52) (P % 2 ^ 52) := by
  have hs : s.toNat ≤ 1 := by cases s <;> decide
  have hn : (BitVec.ofNat 64 (s.toNat * 2 ^ 63 + P)).toNat = s.toNat * 2 ^ 63 + P := by
    rw [BitVec.toNat_ofNat, Nat.mod_eq_of_lt (show s.toNat * 2 ^ 63 + P < 2 ^ 64 by omega)]
  have h1 : (BitVec.ofNat 64 (s.toNat * 2 ^ 63 + P)).getLsbD 63 = s := by
    rw [BitVec.getLsbD, hn, Nat.mul_comm, Nat.testBit_two_pow_mul_add _ hP]; cases s <;> simp
  have h2 : (s.toNat * 2 ^ 63 + P) / 2 ^ 52 % 2 ^ 11 = P / 2 ^ 52 := by omega
  have h3 : (s.toNat * 2 ^ 63 + P) % 2 ^ 52 = P % 2 ^ 52 := by omega
  rw [valOfB64, h1, BitVec.extractLsb'_toNat, BitVec.extractLsb'_toNat, hn,
      Nat.shiftRight_eq_div_pow, Nat.shiftRight_zero, h2, h3]

/-- Every carrier pattern is a sign and magnitude bits. -/
theorem carrier_cases (p : Carrier) : ∃ (s : Symbol) (P : Nat),
    P < 2 ^ 63 ∧ p = BitVec.ofNat 64 (s.toNat * 2 ^ 63 + P) := by
  have hl := p.isLt
  refine ⟨decide (2 ^ 63 ≤ p.toNat), p.toNat % 2 ^ 63, Nat.mod_lt _ (by norm_num), ?_⟩
  apply BitVec.eq_of_toNat_eq
  rw [toNat_topBit (by omega), BitVec.toNat_ofNat]
  omega

/-- Below the infinity pattern. -/
theorem valOfB64_below (s : Symbol) {P : Nat} (hP : P < 2047 * 2 ^ 52) :
    valOfB64 (BitVec.ofNat 64 (s.toNat * 2 ^ 63 + P)) = if P =
        0 then .zero s else .fin (signed s (magnitudeOf 52 1023 P)) := by
  rw [valOfB64_ofNat s (by omega), valueOfFields_magnitude (E := 11) s hP]

/-- From the infinity pattern up. -/
theorem valOfB64_top (s : Symbol) {P : Nat} (hP : P < 2 ^ 63) (h : 2047 * 2 ^ 52 ≤ P) :
    valOfB64 (BitVec.ofNat 64 (s.toNat * 2 ^ 63 + P)) = if P =
        2047 * 2 ^ 52 then .inf s else .nan := by
  rw [valOfB64_ofNat s hP, show P / 2 ^ 52 = 2 ^ 11 - 1 by omega, valueOfFields_special (E :=
      11) s (by norm_num)]
  congr 1; rw [eq_iff_iff]; omega

/-- A carrier magnitude, the scale it lies on, and its exponent. -/
theorem carrier_scale {P : Nat} (h0 : P ≠ 0) : ∃ k n : Nat, P = k * 2 ^ 52 + n ∧ 0 < n ∧ n < 2 ^ 53 ∧
    (k = 0 ∨ 2 ^ 52 ≤ n) ∧
    magnitudeOf 52 1023 P = n * (2:ℚ) ^ ((k:ℤ) - 1074) ∧
    (2 ^ 52 ≤ n → floorLog2 (magnitudeOf 52 1023 P) = k - 1022) ∧ (n < 2 ^ 52 →
        floorLog2 (magnitudeOf 52 1023 P) < - 1022) := by
  have h2 : (2:ℚ) ≠ 0 := by norm_num
  obtain ⟨k, n, hP, hn, hk, he⟩ := magnitudeOf_eq 52 1023 P
  rw [show (k:ℤ) + 1 - (1023:ℕ) - (52:ℕ) = k - 1074 by push_cast; ring] at he
  refine ⟨k, n, hP, by omega, hn, hk, he, fun h => ?_, fun h => ?_⟩
  · apply floorLog2_unique
    · rw [he, show (k:ℤ) - 1022 = (52:ℕ) + (k - 1074) by push_cast; ring, zpow_add₀ h2,
        zpow_natCast]
      gcongr; exact_mod_cast h
    · rw [he, show (k:ℤ) - 1022 + 1 = (53:ℕ) + (k - 1074) by push_cast; ring, zpow_add₀ h2,
        zpow_natCast]
      gcongr; exact_mod_cast hn
  · have hs := (floorLog2_spec (magnitudeOf_pos (M := 52) (bias := 1023) h0)).1
    have hk0 : k = 0 := by omega
    have : (2:ℚ) ^ floorLog2 (magnitudeOf 52 1023 P) < 2 ^ (-1022:ℤ) := by
      refine lt_of_le_of_lt hs ?_
      rw [he, hk0, show (-1022:ℤ) = (52:ℕ) + ((0:ℕ) - 1074) by norm_num, zpow_add₀ h2, zpow_natCast]
      gcongr; exact_mod_cast h
    exact (zpow_lt_zpow_iff_right₀ (by norm_num)).mp this

theorem floor_natCast_toNat (n : ℕ) : (n : ℚ).floor.toNat = n := by
  rw [show (n:ℚ).floor = ⌊(n:ℚ)⌋ from rfl, Int.floor_natCast]; rfl

/-- R74: a carrier magnitude is written as its own pattern. -/
theorem b64OfVal_magnitudeOf (s : Symbol) {P : Nat} (h0 : P ≠ 0) :
    b64OfVal (.fin (signed s (magnitudeOf 52 1023 P))) = BitVec.ofNat 64 (s.toNat * 2 ^ 63 + P) :=
        by
  have h2 : (2:ℚ) ≠ 0 := by norm_num
  have hm := magnitudeOf_pos (M := 52) (bias := 1023) h0
  obtain ⟨k, n, hP, hn0, hn, hk, he, h3, h4⟩ := carrier_scale h0
  simp only [b64OfVal, magnitude_signed s hm, signOf_signed s hm]
  have hu : (0:ℚ) < 2 ^ ((k:ℤ) - 1074) := by positivity
  rcases Nat.lt_or_ge n (2 ^ 52) with h | h
  · rw [if_neg (by have := h4 h; omega)]
    have hk0 : k = 0 := by omega
    have : magnitudeOf 52 1023 P / pow2 (-1074) = (n : ℚ) := by
      rw [he, hk0, pow2_eq_zpow, show ((0:ℕ):ℤ) - 1074 = -1074 by norm_num, mul_div_assoc,
          div_self (by positivity), mul_one]
    rw [this, floor_natCast_toNat, hP, hk0, Nat.zero_mul, Nat.zero_add]
  · rw [if_pos (by have := h3 h; omega), h3 h]
    have : (magnitudeOf 52 1023 P / pow2 ((k:ℤ) - 1022) - 1) * pow2 52 = ((n - 2 ^ 52 : ℕ) : ℚ) :=
        by
      rw [he, pow2_eq_zpow, pow2_eq_zpow, show (k:ℤ) - 1022 =
          (52:ℕ) + (k - 1074) by push_cast; ring, zpow_add₀ h2, mul_div_mul_right _ _ hu.ne']
      rw [show (52:ℤ) = (52:ℕ) from rfl, zpow_natCast, Nat.cast_sub h, Nat.cast_pow,
          Nat.cast_ofNat, sub_mul, div_mul_cancel₀ _ (by positivity), one_mul]
    have e1 : ((k:ℤ) - 1022 + 1023).toNat = k + 1 := by omega
    rw [this, floor_natCast_toNat, e1, Nat.add_assoc, show (k + 1) * 2 ^ 52 + (n - 2 ^ 52) =
        P by omega]

/-- What a value on the carrier is. -/
theorem exists_of_onCarrier {q : ℚ} (h : (Val.fin q).onCarrier = true) :
    ∃ P, P ≠ 0 ∧ P < 2047 * 2 ^ 52 ∧ q = signed (signOf q) (magnitudeOf 52 1023 P) := by
  have h2 : (2:ℚ) ≠ 0 := by norm_num
  simp only [Val.onCarrier, Bool.and_eq_true, decide_eq_true_eq, beq_iff_eq] at h
  obtain ⟨⟨hq, he⟩, hden⟩ := h
  have hpos := magnitude_pos hq
  obtain ⟨g1, g2⟩ := floorLog2_spec hpos
  obtain ⟨k, hk⟩ : ∃ k : ℕ, max (floorLog2 (magnitude q)) (-1022) - 52 = (k:ℤ) - 1074 := by
    refine ⟨(max (floorLog2 (magnitude q)) (-1022) + 1022).toNat, ?_⟩; omega
  rw [hk, pow2_eq_zpow] at hden
  have hu : (0:ℚ) < 2 ^ ((k:ℤ) - 1074) := by positivity
  have hx := div_pos hpos hu
  obtain ⟨n, hn⟩ : ∃ n : ℕ, magnitude q / 2 ^ ((k:ℤ) - 1074) = n := by
    set x := magnitude q / 2 ^ ((k:ℤ) - 1074)
    have hxi : x = x.num := (Rat.coe_int_num_of_den_eq_one hden).symm
    have hxn : 0 < x.num := Rat.num_pos.mpr hx
    exact ⟨x.num.toNat, by rw [hxi]; exact_mod_cast (Int.toNat_of_nonneg hxn.le).symm⟩
  have ha : magnitude q = n * 2 ^ ((k:ℤ) - 1074) := by rw [← hn, div_mul_cancel₀ _ hu.ne']
  have hn0 : 0 < n := by
    rw [hn] at hx; exact_mod_cast hx
  have hn53 : n < 2 ^ 53 := by
    have : (n:ℚ) < (2 ^ 53 : ℕ) := by
      rw [← hn, div_lt_iff₀ hu]
      refine lt_of_lt_of_le g2 ?_
      rw [Nat.cast_pow, Nat.cast_ofNat, ← zpow_natCast, ← zpow_add₀ h2]
      exact zpow_le_zpow_right₀ (by norm_num) (by omega)
    exact_mod_cast this
  have hn52 : k = 0 ∨ 2 ^ 52 ≤ n := by
    rcases Nat.eq_zero_or_pos k with h | h
    · exact .inl h
    · right
      have : ((2 ^ 52 : ℕ) : ℚ) ≤ n := by
        rw [← hn, le_div_iff₀ hu]
        refine le_trans (le_of_eq ?_) g1
        rw [Nat.cast_pow, Nat.cast_ofNat, ← zpow_natCast, ← zpow_add₀ h2]
        congr 1; omega
      exact_mod_cast this
  refine ⟨k * 2 ^ 52 + n, by omega, by omega, ?_⟩
  rw [magnitudeOf_grid (by omega) hn52, show (k:ℤ) + 1 - (1023:ℕ) - (52:ℕ) =
      k - 1074 by push_cast; ring, ← ha, signed_signOf_magnitude]

/-- R74: `NAN64_OUT` is a binary64 NaN, whatever the free value is. -/
theorem isNan64_nan64Out : isNan64 nan64Out = true := by
  unfold nan64Out; split_ifs with h
  · exact h
  · decide

theorem valOfB64_nan {p : Carrier} (h : isNan64 p = true) : valOfB64 p = .nan := by
  simp only [isNan64, Bool.and_eq_true, beq_iff_eq, bne_iff_ne] at h
  have h2 : (p.extractLsb' 0 52).toNat ≠ 0 := fun c => h.2 (BitVec.eq_of_toNat_eq c)
  rw [valOfB64, h.1, show (0x7FF#11).toNat = 2 ^ 11 - 1 from rfl,
      valueOfFields_special _ (by norm_num), if_neg h2]

/-- R61, R69: the header bits of each row, `op` first. -/
theorem serialize_header (i : Instr) : serialize (header i).toNat 3 = match i with
    | .encodeHalf _ => [false, false, false]
    | .encodeBfloat _ => [false, false, true]
    | .encodeSingle _ => [false, true, false]
    | .encodeRsvd3 _ => [false, true, true]
    | .decodeHalf _ => [true, false, false]
    | .decodeBfloat _ => [true, false, true]
    | .decodeSingle _ => [true, true, false]
    | .decodeRsvd3 _ => [true, true, true] := by cases i <;> simp only [header] <;> rfl

end Sys2Proof.Machine
end

