-- ==== Sys2Proof/Laws/State.lean ====
section
/-! SUPPORT. One lemma per field per update of `State`. -/

namespace Sys2Proof.Machine

@[simp] theorem State.reset_pending : State.reset.pending = [] := rfl
@[simp] theorem State.reset_responses : State.reset.responses = [] := rfl

@[simp] theorem State.deliver_pending (s : State) (r : Response) :
    (s.deliver r).pending = s.pending := rfl
@[simp] theorem State.deliver_responses (s : State) (r : Response) :
    (s.deliver r).responses = s.responses ++ [r] := rfl

@[simp] theorem State.present_pending (s : State) (bits : BitString) :
    (s.present bits).pending = s.pending ++ [bits] := rfl
@[simp] theorem State.present_responses (s : State) (bits : BitString) :
    (s.present bits).responses = s.responses := rfl

@[simp] theorem State.cutByReset_pending (s : State) : s.cutByReset.pending = [] := rfl
@[simp] theorem State.cutByReset_responses (s : State) :
    s.cutByReset.responses = s.responses := rfl

end Sys2Proof.Machine
end

