-- ==== Sys2Proof/Laws/Ops.lean ====
section
/-! SUPPORT. What the shared operations and the meanings do, each said once. -/

namespace Sys2Proof.Machine

@[simp] theorem fetch_of_nil {s : State} (h : s.pending = []) : fetch s = none := by
  simp [fetch, h]

@[simp] theorem fetch_of_cons {s : State} {bits : BitString} {rest : List BitString}
    (h : s.pending = bits :: rest) : fetch s = some (bits, { s with pending := rest }) := by
  simp [fetch, h]

@[simp] theorem respond_eq (r : Response) (s : State) : respond r s = .next (s.deliver r) := rfl

@[simp] theorem raiseError_eq (e : CodecError) (s : State) :
    raiseError e s = .next (s.deliver (.error e)) := rfl

/-- `finishEncode` answers a next state whatever it is given. -/
theorem finishEncode_ok (ev : EncodedValue) (s : State) :
    finishEncode (.ok ev) s = .next (s.deliver (.okEncode ev.bitString ev.decodedDecimal)) := rfl

theorem finishEncode_error (e : CodecError) (s : State) :
    finishEncode (.error e) s = .next (s.deliver (.error e)) := rfl

/-- `finishDecode` answers a next state whatever it is given. -/
theorem finishDecode_ok (d : Val) (s : State) :
    finishDecode (.ok d) s = .next (s.deliver (.okDecode d)) := rfl

theorem finishDecode_error (e : CodecError) (s : State) :
    finishDecode (.error e) s = .next (s.deliver (.error e)) := rfl

/-- R90: what `select` can answer. -/
theorem select_cases (fmt : FmtCode) :
    select fmt = .ok (fs .half) ∨ select fmt = .ok (fs .bfloat) ∨ select fmt = .ok (fs .single) ∨
      select fmt = .error .invalidFormat := by
  unfold select
  split <;> simp

@[simp] theorem select_half : select 0b00#2 = .ok (fs .half) := rfl
@[simp] theorem select_bfloat : select 0b01#2 = .ok (fs .bfloat) := rfl
@[simp] theorem select_single : select 0b10#2 = .ok (fs .single) := rfl
@[simp] theorem select_rsvd3 : select 0b11#2 = .error .invalidFormat := rfl

@[simp] theorem fs_name (f : Format) : (fs f).name = f := by cases f <;> rfl

theorem fs_totalBits (f : Format) :
    (fs f).totalBits = 1 + (fs f).exponentBits + (fs f).mantissaBits := by cases f <;> rfl

/-- The bias of every format is the one its exponent width gives. -/
theorem fs_bias (f : Format) : (fs f).bias = 2 ^ ((fs f).exponentBits - 1) - 1 := by
  cases f <;> rfl

theorem fs_exp_two (f : Format) : 2 ≤ (fs f).exponentBits := by cases f <;> decide

/-- The frame ENCODE returns for a pattern of a format. -/
def frameOf (f : Format) (v : Val) : BitString := serialize (patternOf v f) (fs f).totalBits

@[simp] theorem frameOf_length (f : Format) (v : Val) :
    (frameOf f v).length = (fs f).totalBits := by simp [frameOf]

/-- Two responses delivered in the same state leave the same state only if they are equal. -/
@[simp] theorem deliver_inj {s : State} {r r' : Response} :
    (.next (s.deliver r) : Host.Outcome State Fault Refusal) = .next (s.deliver r') ↔ r = r' := by
  simp [State.deliver]

/-- R121 to R123: the response of ENCODE for each of the three formats. -/
theorem exec_encodeOf (f : Format) (v : Val) (s : State) :
    exec (.encodeOf (some f) v) s =
      .next (s.deliver (.okEncode (frameOf f v) (decodeValue (frameOf f v) (fs f)))) := by
  cases f <;> rfl

/-- R129, R182: the unrecognised format, for both operations. -/
theorem exec_encodeOf_none (v : Val) (s : State) :
    exec (.encodeOf none v) s = .next (s.deliver (.error .invalidFormat)) := rfl

theorem exec_decodeOf_none (bs : BitString) (s : State) :
    exec (.decodeOf none bs) s = .next (s.deliver (.error .invalidFormat)) := rfl

/-- R171 to R173: the response of DECODE for each of the three formats. -/
theorem exec_decodeOf (f : Format) (bs : BitString) (s : State) :
    exec (.decodeOf (some f) bs) s =
      .next (s.deliver (if bs.length = (fs f).totalBits then .okDecode (decodeValue bs (fs f))
        else .error .malformedBitString)) := by
  cases f <;>
    simp only [Instr.decodeOf, exec, execDecodeHalf, execDecodeBfloat, execDecodeSingle,
      decodeCommand, select_half, select_bfloat, select_single, checkLength] <;>
    split_ifs <;> rfl

theorem exec_decodeOf_of_length (f : Format) {bs : BitString} (h : bs.length =
    (fs f).totalBits) (s : State) :
    exec (.decodeOf (some f) bs) s = .next (s.deliver (.okDecode (decodeValue bs (fs f)))) := by
  rw [exec_decodeOf, if_pos h]

/-- Every command is a call of R78, with a format or an unrecognised one. -/
theorem instr_is_call (i : Instr) :
    (∃ f v, i = .encodeOf f v) ∨ (∃ f bs, i = .decodeOf f bs) := by
  cases i with
  | encodeHalf v => exact .inl ⟨some .half, v, rfl⟩
  | encodeBfloat v => exact .inl ⟨some .bfloat, v, rfl⟩
  | encodeSingle v => exact .inl ⟨some .single, v, rfl⟩
  | encodeRsvd3 v => exact .inl ⟨none, v, rfl⟩
  | decodeHalf bs => exact .inr ⟨some .half, bs, rfl⟩
  | decodeBfloat bs => exact .inr ⟨some .bfloat, bs, rfl⟩
  | decodeSingle bs => exact .inr ⟨some .single, bs, rfl⟩
  | decodeRsvd3 bs => exact .inr ⟨none, bs, rfl⟩

/-- One inversion of `step`: the idle state, a command run, or bits that are no command. -/
theorem step_cases (s : State) :
    (s.pending = [] ∧ step s = .next s) ∨
    (∃ bits rest i, s.pending = bits :: rest ∧ decode bits = .ok i ∧
      step s = exec i { s with pending := rest }) ∨
    (∃ bits rest why, s.pending = bits :: rest ∧ decode bits = .error why ∧
      step s = .refused (.notACommand why)) := by
  cases h : s.pending with
  | nil => exact .inl ⟨rfl, by simp [step, fetch_of_nil h]⟩
  | cons bits rest =>
    cases hd : decode bits with
    | ok i => exact .inr (.inl ⟨bits, rest, i, rfl, hd, by simp [step, fetch_of_cons h, hd]⟩)
    | error why =>
      exact .inr (.inr ⟨bits, rest, why, rfl, hd, by simp [step, fetch_of_cons h, hd]⟩)

@[simp] theorem State.withFetchWord_pending (s : State) (nbits w : Nat) :
    (s.withFetchWord nbits w).pending = tableBits nbits w :: s.pending := rfl
@[simp] theorem State.withFetchWord_responses (s : State) (nbits w : Nat) :
    (s.withFetchWord nbits w).responses = s.responses := rfl

/-- A run of any machine goes on from the state a step answers. -/
theorem run_succ {M : Host.Core} {s t : M.State} (n : Nat) (h : M.step s = .next t) :
    M.run (n + 1) s = M.run n t := by
  rw [Host.Core.run, h]

/-- A run of the codec goes on from the state a step answers. -/
theorem run_succ_of_next {s t : State} (n : Nat) (h : step s = .next t) :
    core.run (n + 1) s = core.run n t :=
  run_succ (M := core) n h

end Sys2Proof.Machine
end

