-- ==== Sys2Proof/Laws/Encoder.lean ====
section
/-! SUPPORT. Frames and patterns by sign and magnitude bits: what the decoder reads from one, and
which one the encoder writes for each kind of value. -/

namespace Sys2Proof.Machine

/-- A frame written from its sign and magnitude bits decodes by the fields of the magnitude. -/
theorem decodeValue_serialize (f : Format) (s : Symbol) {P : Nat}
    (hP : P < 2 ^ ((fs f).exponentBits + (fs f).mantissaBits)) :
    decodeValue (serialize (s.toNat * 2 ^ ((fs f).exponentBits + (fs f).mantissaBits) + P)
        (fs f).totalBits) (fs f) =
      valueOfFields (fs f).exponentBits (fs f).mantissaBits (fs f).bias s
        (P / 2 ^ (fs f).mantissaBits) (P % 2 ^ (fs f).mantissaBits) := by
  have hM : 0 < 2 ^ (fs f).mantissaBits := by positivity
  rw [fs_totalBits, Nat.add_assoc, serialize_append _ _ hP]
  have hs : serialize s.toNat 1 = [s] := by cases s <;> rfl
  have hd : P / 2 ^ (fs f).mantissaBits < 2 ^ (fs f).exponentBits :=
    (Nat.div_lt_iff_lt_mul hM).mpr (by rw [← pow_add]; exact hP)
  have hm := Nat.mod_lt P hM
  conv_lhs => rw [hs, ← Nat.div_add_mod P (2 ^ (fs f).mantissaBits), Nat.mul_comm,
    serialize_append _ _ hm]
  rw [decodeValue, List.singleton_append, split_append (fs f) s (by simp) (by simp),
    uint_serialize_mod, uint_serialize_mod, Nat.mod_eq_of_lt hd, Nat.mod_mod]

/-- Every frame is written so. -/
theorem exists_sign_magnitude (f : Format) {bs : BitString} (h : bs.length = (fs f).totalBits) :
    ∃ (s : Symbol) (P : Nat), P < 2 ^ ((fs f).exponentBits + (fs f).mantissaBits) ∧
      bs = serialize (s.toNat * 2 ^ ((fs f).exponentBits + (fs f).mantissaBits) + P)
        (fs f).totalBits := by
  match bs with
  | [] => rw [fs_totalBits] at h; simp at h; omega
  | s :: t =>
    have ht : t.length = (fs f).exponentBits + (fs f).mantissaBits := by
      rw [fs_totalBits, List.length_cons] at h; omega
    refine ⟨s, uint t, ht ▸ uint_lt t, ?_⟩
    rw [← ht, ← uint_cons, ← h]
    exact (serialize_uint _).symm

/-- The value of a frame that is no NaN. -/
theorem decodeValue_not_nan (f : Format) (s : Symbol) {P : Nat}
    (hP : P ≤ (2 ^ (fs f).exponentBits - 1) * 2 ^ (fs f).mantissaBits) :
    decodeValue (serialize (s.toNat * 2 ^ ((fs f).exponentBits + (fs f).mantissaBits) + P)
        (fs f).totalBits) (fs f) =
      if P = (2 ^ (fs f).exponentBits - 1) * 2 ^ (fs f).mantissaBits then .inf s
      else if P = 0 then .zero s
      else .fin (signed s (magnitudeOf (fs f).mantissaBits (fs f).bias P)) := by
  have hE : 0 < (fs f).exponentBits := by cases f <;> decide
  have hM : 0 < 2 ^ (fs f).mantissaBits := by positivity
  rw [decodeValue_serialize f s (lt_of_le_of_lt hP (infinity_lt _ _))]
  split_ifs with h1 h2
  · rw [h1, Nat.mul_div_cancel _ hM, Nat.mul_mod_left, valueOfFields_special s hE, if_pos rfl]
  · rw [valueOfFields_magnitude s (by omega), if_pos h2]
  · rw [valueOfFields_magnitude s (by omega), if_neg h2]

/-- The pattern of R103 is a sign and magnitude bits up to the infinity. -/
theorem roundToFormat_bound {a : ℚ} (ha : 0 < a) (s : Symbol) (f : Format) : ∃ P,
    roundToFormat s a (fs f).exponentBits (fs f).mantissaBits =
        s.toNat * 2 ^ ((fs f).exponentBits + (fs f).mantissaBits) + P ∧
            P ≤ (2 ^ (fs f).exponentBits - 1) * 2 ^ (fs f).mantissaBits := by
  obtain ⟨k, n, _, _, _, _, _, h⟩ := roundToFormat_spec ha s (E := (fs f).exponentBits) (M :=
      (fs f).mantissaBits) (fs_bias f)
  exact ⟨_, h, min_le_right _ _⟩

/-- Narrowing a pattern that is no NaN keeps its sign and gives no NaN. -/
theorem narrow16_sign (s : Symbol) {P : Nat} (hP : P ≤ 255 * 2 ^ 23) :
    ∃ P', P' ≤ 255 * 2 ^ 7 ∧ (narrow16 (BitVec.ofNat 32 (s.toNat * 2 ^ 31 + P))).toNat =
        s.toNat * 2 ^ 15 + P' := by
  have hs : s.toNat ≤ 1 := by cases s <;> decide
  rw [narrow16_toNat, BitVec.toNat_ofNat, Nat.mod_eq_of_lt
      (show s.toNat * 2 ^ 31 + P < 2 ^ 32 by omega)]
  refine ⟨P / 2 ^ 16 + (if 2 ^ 15 < P % 2 ^ 16 ∨ (P % 2 ^ 16 = 2 ^ 15 ∧
      P / 2 ^ 16 % 2 = 1) then 1 else 0), ?_, ?_⟩
  · split_ifs <;> omega
  · split_ifs <;> omega

/-- R125: the pattern of a zero. -/
theorem patternOf_zero (f : Format) (s : Symbol) : patternOf (.zero s) f =
    s.toNat * 2 ^ ((fs f).exponentBits + (fs f).mantissaBits) := by
  cases f <;> cases s <;> decide

/-- R126: the pattern of an infinity. -/
theorem patternOf_inf (f : Format) (s : Symbol) : patternOf (.inf s) f =
    s.toNat * 2 ^ ((fs f).exponentBits + (fs f).mantissaBits) + (2 ^ (fs f).exponentBits - 1) * 2 ^
        (fs f).mantissaBits := by
  cases f <;> cases s <;> decide

/-- The pattern of a finite number, in each format: its sign, then magnitude bits. -/
theorem patternOf_fin (f : Format) {q : ℚ} (hq : q ≠ 0) : ∃ P,
    P ≤ (2 ^ (fs f).exponentBits - 1) * 2 ^ (fs f).mantissaBits ∧
    patternOf (.fin q) f = (decide (q < 0)).toNat * 2 ^ ((fs f).exponentBits +
        (fs f).mantissaBits) + P := by
  cases f
  case bfloat =>
    obtain ⟨P, h, hP⟩ := roundToFormat_bound (magnitude_pos hq) (signOf q) .single
    obtain ⟨P', hP', h'⟩ := narrow16_sign (signOf q) hP
    refine ⟨P', hP', ?_⟩
    rw [show decide (q < 0) = signOf q from rfl, ← show _ =
        (signOf q).toNat * 2 ^ ((fs .bfloat).exponentBits + (fs .bfloat).mantissaBits) + P' from h']
    show (narrow16 (BitVec.ofNat 32 (roundToFormat (signOf q) (magnitude q)
        (fs .single).exponentBits (fs .single).mantissaBits))).toNat = _
    rw [h]; rfl
  all_goals
    obtain ⟨P, h, hP⟩ := roundToFormat_bound (magnitude_pos hq) (signOf q) _
    exact ⟨P, hP, h⟩

/-- A bfloat magnitude is the single magnitude of the shifted pattern. -/
theorem magnitudeOf_bfloat (P : Nat) : magnitudeOf 7 127 P = magnitudeOf 23 127 (P * 2 ^ 16) := by
  obtain ⟨k, n, rfl, hn, hk, he⟩ := magnitudeOf_eq 7 127 P
  rw [he, show (k * 2 ^ 7 + n) * 2 ^ 16 = k * 2 ^ 23 + n * 2 ^ 16 by ring,
      magnitudeOf_grid (by omega) (by omega)]
  push_cast
  rw [show (k : ℤ) + 1 - 127 - 7 = (k + 1 - 127 - 23) + (16:ℕ) by push_cast; ring,
      zpow_add₀ (by norm_num), zpow_natCast]
  ring

/-- A number of the format has its own pattern. -/
theorem patternOf_magnitudeOf (f : Format) (s : Symbol) {P : Nat} (h0 : P ≠ 0) (hP : P < (2 ^
    (fs f).exponentBits - 1) * 2 ^ (fs f).mantissaBits) :
    patternOf (.fin (signed s (magnitudeOf (fs f).mantissaBits (fs f).bias P))) f =
        s.toNat * 2 ^ ((fs f).exponentBits + (fs f).mantissaBits) + P := by
  have hm := magnitudeOf_pos (M := (fs f).mantissaBits) (bias := (fs f).bias) h0
  cases f
  case bfloat =>
    show (narrow16 (BitVec.ofNat 32 (roundToFormat _ _ 8 23))).toNat = _
    rw [magnitude_signed s hm, signOf_signed s hm]
    rw [show magnitudeOf (fs .bfloat).mantissaBits (fs .bfloat).bias P = _ from magnitudeOf_bfloat P,
      roundToFormat_magnitudeOf (E := 8) (M := 23) (bias :=
          127) s rfl (by omega) (by simp only [fs] at hP; omega), narrow16_toNat]
    have hs : s.toNat ≤ 1 := by cases s <;> decide
    simp only [fs] at hP ⊢
    rw [BitVec.toNat_ofNat, if_neg (by omega)]; omega
  all_goals
    refine Eq.trans ?_ (roundToFormat_magnitudeOf s (fs_bias _) h0 hP)
    show roundToFormat _ _ _ _ = _
    rw [magnitude_signed s hm, signOf_signed s hm]; rfl

/-- R127: both encoding constants are admissible, whatever the free values are. -/
theorem nanEncHalf_admissible : admissibleNanHalf nanEncHalf = true := by
  unfold nanEncHalf; split_ifs with h
  · exact h
  · decide

theorem nanEncSingle_admissible : admissibleNanSingle nanEncSingle = true := by
  unfold nanEncSingle; split_ifs with h
  · exact h
  · decide

/-- A pattern whose exponent field is all ones. -/
theorem sign_ones_mantissa {x E M : Nat} (h : x < 2 * 2 ^ (E + M)) (he : x / 2 ^ M % 2 ^ E =
    2 ^ E - 1) :
    x = (decide (2 ^ (E + M) ≤ x)).toNat * 2 ^ (E + M) + ((2 ^ E - 1) * 2 ^ M + x % 2 ^ M) := by
  rw [toNat_topBit h, Nat.add_comm E M, pow_add, ← Nat.div_div_eq_div_mul, ← he]
  have h1 := Nat.div_add_mod x (2 ^ M)
  have h2 := Nat.div_add_mod (x / 2 ^ M) (2 ^ E)
  calc x = 2 ^ M * (2 ^ E * (x / 2 ^ M / 2 ^ E) + x / 2 ^ M % 2 ^ E) + x % 2 ^ M := by rw [h2, h1]
    _ = _ := by ring

/-- What an admissible NaN pattern is, in numbers. -/
theorem nan_fields {w E M : Nat} {p : BitVec w} (hw : w = E + M + 1)
    (h1 : p.extractLsb' M E = BitVec.ofNat E (2 ^ E - 1)) (h2 : p.extractLsb' 0 M ≠ 0#M) :
    ∃ (s : Symbol) (m : Nat), 0 < m ∧ m < 2 ^ M ∧ p.toNat =
        s.toNat * 2 ^ (E + M) + ((2 ^ E - 1) * 2 ^ M + m) := by
  have hl : p.toNat < 2 * 2 ^ (E + M) := by rw [← pow_succ', ← hw]; exact p.isLt
  rw [← BitVec.toNat_inj, BitVec.extractLsb'_toNat, Nat.shiftRight_eq_div_pow, BitVec.toNat_ofNat,
    Nat.mod_eq_of_lt (show 2 ^ E - 1 < 2 ^ E by have : 0 < 2 ^ E := by positivity
                                                omega)] at h1
  rw [ne_eq, ← BitVec.toNat_inj, BitVec.extractLsb'_toNat, Nat.shiftRight_zero, BitVec.toNat_ofNat,
      Nat.zero_mod] at h2
  exact ⟨_, p.toNat % 2 ^ M, by omega, Nat.mod_lt _ (by positivity), sign_ones_mantissa hl h1⟩

/-- R127: the pattern of NaN, in each format. -/
theorem patternOf_nan (f : Format) : ∃ (s : Symbol) (m : Nat), 0 < m ∧ m < 2 ^ (fs f).mantissaBits ∧
    patternOf .nan f = s.toNat * 2 ^ ((fs f).exponentBits + (fs f).mantissaBits) + ((2 ^
        (fs f).exponentBits - 1) * 2 ^ (fs f).mantissaBits + m) := by
  have hh := nanEncHalf_admissible
  have hs := nanEncSingle_admissible
  simp only [admissibleNanHalf, admissibleNanSingle, Bool.and_eq_true, beq_iff_eq,
      bne_iff_ne] at hh hs
  cases f
  case half => exact nan_fields (E := 5) (M := 10) rfl hh.1 hh.2
  case single => exact nan_fields (E := 8) (M := 23) rfl hs.1.1.1 hs.1.1.2
  case bfloat =>
    obtain ⟨s, m, h0, hm, hp⟩ := nan_fields (E := 8) (M := 7) rfl hs.1.2 hs.2
    refine ⟨s, m, h0, hm, ?_⟩
    show (narrow16 (BitVec.ofNat 32 nanEncSingle.toNat)).toNat = _
    rw [BitVec.ofNat_toNat, BitVec.setWidth_eq]
    exact hp

end Sys2Proof.Machine
end

