-- ==== Sys2Proof/Laws/PerInstr.lean ====
section
/-! SUPPORT. A statement about each of the eight instructions as syntax: what stands where on the
link. -/

namespace Sys2Proof.Laws

/-- R61, R62, R64: a command is `op`, `fmt[1]`, `fmt[0]`, then its payload, which is 64 bits long
when `op` is 0. -/
def HeaderOfRow.Statement (i : Instr) : Prop :=
  encode i = (header i).getLsbD 2 :: (header i).getLsbD 1 :: (header i).getLsbD 0 :: payload i ∧
    ((header i).getLsbD 2 = false → (payload i).length = 64)

theorem HeaderOfRow.encodeHalf (v : Val) : HeaderOfRow.Statement (.encodeHalf v) :=
  ⟨by rw [encode, Machine.serialize_header]; simp only [header]; rfl, fun _ => Machine.serialize_length _ _⟩

theorem HeaderOfRow.encodeBfloat (v : Val) : HeaderOfRow.Statement (.encodeBfloat v) :=
  ⟨by rw [encode, Machine.serialize_header]; simp only [header]; rfl, fun _ => Machine.serialize_length _ _⟩

theorem HeaderOfRow.encodeSingle (v : Val) : HeaderOfRow.Statement (.encodeSingle v) :=
  ⟨by rw [encode, Machine.serialize_header]; simp only [header]; rfl, fun _ => Machine.serialize_length _ _⟩

theorem HeaderOfRow.encodeRsvd3 (v : Val) : HeaderOfRow.Statement (.encodeRsvd3 v) :=
  ⟨by rw [encode, Machine.serialize_header]; simp only [header]; rfl, fun _ => Machine.serialize_length _ _⟩

theorem HeaderOfRow.decodeHalf (bs : BitString) : HeaderOfRow.Statement (.decodeHalf bs) :=
  ⟨by rw [encode, Machine.serialize_header]; simp only [header]; rfl, by simp [header]⟩

theorem HeaderOfRow.decodeBfloat (bs : BitString) : HeaderOfRow.Statement (.decodeBfloat bs) :=
  ⟨by rw [encode, Machine.serialize_header]; simp only [header]; rfl, by simp [header]⟩

theorem HeaderOfRow.decodeSingle (bs : BitString) : HeaderOfRow.Statement (.decodeSingle bs) :=
  ⟨by rw [encode, Machine.serialize_header]; simp only [header]; rfl, by simp [header]⟩

theorem HeaderOfRow.decodeRsvd3 (bs : BitString) : HeaderOfRow.Statement (.decodeRsvd3 bs) :=
  ⟨by rw [encode, Machine.serialize_header]; simp only [header]; rfl, by simp [header]⟩

end Sys2Proof.Laws
end

