-- ==== Sys2Proof/Tests/Slice0.lean ====
section
/-! SUPPORT. The model's own tests. Every expected result is the spec's: a vector of
`spec/95_test_vectors.md` where one is named, an encoding of `spec/30_encoding.md` otherwise. The second
part shows, for each obligation with hypotheses, a concrete case that meets them, each clause at a boundary
of its range. -/

open Sys2Proof Sys2Proof.Machine

namespace Sys2Proof.Tests

set_option Elab.async false

/-- Symbols as the spec writes them, 0 and 1. -/
def bits (ns : List Nat) : BitString := ns.map (· == 1)

/-- What one step from reset delivers for one command presented. -/
def answer (command : BitString) : Option (List Response) :=
  match step (State.reset.present command) with
  | .next s => some s.responses
  | .fault _ => none
  | .refused _ => none

/-! ### Well-formedness: each check refuses an ill-formed term -/

/-- R14: `Fin(0)` is not a value. -/
theorem test_wf_refuses_fin_zero : (Val.fin 0).wf = false := by decide +kernel

theorem test_wf_refuses_encode_fin_zero :
    [Instr.encodeHalf (.fin 0), .encodeBfloat (.fin 0), .encodeSingle (.fin 0), .encodeRsvd3 (.fin 0)].map
      Instr.wf = [false, false, false, false] := by decide +kernel

/-- V-EH3: 0.1 is not exact in binary64, but it is a value (D3). -/
theorem test_onCarrier_refuses_a_tenth :
    (Val.fin (1 / 10)).onCarrier = false ∧ (Val.fin (1 / 10)).wf = true := by decide +kernel

theorem test_onCarrier_refuses_fin_zero : (Val.fin 0).onCarrier = false := by decide +kernel

/-- R73: the finite carrier values end below `2^1024`, and their spacing at `2^-1074`. -/
theorem test_onCarrier_range :
    (Val.fin (2 ^ 1024)).onCarrier = false ∧ (Val.fin (2 ^ 1023 * (2 - 1 / 2 ^ 52))).onCarrier = true ∧
    (Val.fin (1 / 2 ^ 1074)).onCarrier = true ∧ (Val.fin (1 / 2 ^ 1075)).onCarrier = false := by
  decide +kernel

theorem test_onLink_refuses_a_tenth :
    [Instr.encodeHalf (.fin (1 / 10)), .encodeBfloat (.fin (1 / 10)), .encodeSingle (.fin (1 / 10)),
      .encodeRsvd3 (.fin (1 / 10))].map Instr.onLink = [false, false, false, false] := by decide +kernel

/-! ### Decoding: each row of R69 by bits written out from R61, R62, R73 -/

/-- V-EH2: header `000`, then -2.5 as `0xC004000000000000`, all 67 bits written out. -/
theorem test_decode_encodeHalf :
    (decode (bits ([0, 0, 0] ++ [1] ++ [1, 0, 0, 0, 0, 0, 0, 0, 0, 0, 0] ++
      [0, 1, 0, 0, 0, 0, 0, 0, 0, 0, 0, 0, 0, 0, 0, 0, 0, 0, 0, 0, 0, 0, 0, 0, 0, 0] ++
      [0, 0, 0, 0, 0, 0, 0, 0, 0, 0, 0, 0, 0, 0, 0, 0, 0, 0, 0, 0, 0, 0, 0, 0, 0, 0]))).toOption
      = some (.encodeHalf (.fin (-5 / 2))) := by decide +kernel

/-- V-EB6. -/
theorem test_decode_encodeBfloat :
    (decode (bits [0, 0, 1] ++ serialize 0x8000000000000000 64)).toOption
      = some (.encodeBfloat (.zero true)) := by decide +kernel

/-- V-ES29: the smallest binary64 subnormal. -/
theorem test_decode_encodeSingle :
    (decode (bits [0, 1, 0] ++ serialize 0x0000000000000001 64)).toOption
      = some (.encodeSingle (.fin (1 / 2 ^ 1074))) := by decide +kernel

/-- V-X10. -/
theorem test_decode_encodeRsvd3 :
    (decode (bits [0, 1, 1] ++ serialize 0x7FF8000000000000 64)).toOption = some (.encodeRsvd3 .nan) := by
  decide +kernel

/-- V-X3: the empty frame is a frame. -/
theorem test_decode_decodeHalf :
    (decode (bits [1, 0, 0])).toOption = some (.decodeHalf []) := by decide +kernel

theorem test_decode_decodeBfloat :
    (decode (bits [1, 0, 1, 1, 1, 0])).toOption = some (.decodeBfloat [true, true, false]) := by
  decide +kernel

theorem test_decode_decodeSingle :
    (decode (bits [1, 1, 0, 0])).toOption = some (.decodeSingle [false]) := by decide +kernel

theorem test_decode_decodeRsvd3 :
    (decode (bits [1, 1, 1, 0, 1])).toOption = some (.decodeRsvd3 [false, true]) := by decide +kernel

/-- The header of each row, written out from R69. -/
theorem test_encode_headers :
    [Instr.encodeHalf .nan, .encodeBfloat .nan, .encodeSingle .nan, .encodeRsvd3 .nan, .decodeHalf [],
      .decodeBfloat [], .decodeSingle [], .decodeRsvd3 []].map (fun i => (encode i).take 3) =
    [bits [0, 0, 0], bits [0, 0, 1], bits [0, 1, 0], bits [0, 1, 1], bits [1, 0, 0], bits [1, 0, 1],
      bits [1, 1, 0], bits [1, 1, 1]] := by
  have h (i : Instr) : (encode i).take 3 = serialize (header i).toNat 3 := by
    rw [encode, List.take_left' (serialize_length _ _)]
  simp only [List.map_cons, List.map_nil, h, header]
  decide

/-- The opcode table's own words: header in the low three bits of the first byte. -/
theorem test_decodeTableWord :
    [0, 1, 2, 3, 7].map (decodeTableWord 8) =
      [some (.encodeHalf (.zero false)), some (.encodeBfloat (.zero false)),
        some (.encodeSingle (.zero false)), some (.encodeRsvd3 (.zero false)),
        some (.decodeRsvd3 [])] ∧
    [4, 5, 6].map (decodeTableWord 8) =
      [some (.decodeHalf (List.replicate 16 false)), some (.decodeBfloat (List.replicate 16 false)),
        some (.decodeSingle (List.replicate 32 false))] := by decide +kernel

theorem test_decode_rejects :
    (decode (bits [0, 0])).toOption = none ∧ (decode (bits [0, 0, 0, 1])).toOption = none := by
  decide +kernel

/-! ### The stages -/

/-- V-R2, V-R3, V-R4, V-R7, V-R8. -/
theorem test_rneInt :
    [(1 : ℚ) / 2, 3 / 2, 5 / 2, 1 / 2 + 1 / 2 ^ 60, 16384 / 10].map rneInt = [0, 2, 2, 1, 1638] := by
  decide +kernel

/-- V-R14, V-R15, V-R16, V-R18, V-R20, V-R21, V-R22. -/
theorem test_roundToFormat :
    [(65519 : ℚ), 65520, 2049, 1 / 2 ^ 14 * (1 - 1 / 2 ^ 11), 3 / 2 ^ 25, 1 / 2 ^ 25,
      1 / 2 ^ 25 * (1 + 1 / 2 ^ 20)].map (fun a => roundToFormat false a 5 10) =
    [0x7BFF, 0x7C00, 0x6800, 0x0400, 0x0002, 0x0000, 0x0001] := by decide +kernel

/-- V-N3, V-N4, V-N6, V-N9, V-N16, V-N26, V-N30. -/
theorem test_narrow16 :
    [0x3F807FFF#32, 0x3F808000#32, 0x3F818000#32, 0x3FFF8000#32, 0x7F7F8000#32, 0x7F808001#32,
      0xFFFF8000#32].map narrow16 =
    [0x3F80#16, 0x3F80#16, 0x3F82#16, 0x4000#16, 0x7F80#16, 0x7F81#16, 0x0000#16] := by decide +kernel

/-- V-S9 and V-S10. -/
theorem test_split :
    split (bits [0, 0, 1, 1, 1, 1, 0, 1, 1, 1, 0, 0, 1, 1, 0, 1]) (fs .half) = (false, 15, 461) ∧
    split (serialize 0xC0200000 32) (fs .single) = (true, 128, 2097152) := by decide +kernel

/-- R127's exclusions: V-N22 admissible, V-N24 and V-N28 not; an infinity is no NaN. -/
theorem test_admissible :
    admissibleNanSingle 0x7FC00000#32 = true ∧ admissibleNanSingle 0x7F800001#32 = false ∧
    admissibleNanSingle 0x7FFF8000#32 = false ∧ admissibleNanHalf 0x7E00#16 = true ∧
    admissibleNanHalf 0x7C00#16 = false := by decide +kernel

/-! ### One step of each instruction -/

/-- V-EH3 on the carrier. -/
theorem test_step_encodeHalf_tenth :
    answer (bits [0, 0, 0] ++ serialize 0x3FB999999999999A 64) =
      some [.okEncode (bits [0, 0, 1, 0, 1, 1, 1, 0, 0, 1, 1, 0, 0, 1, 1, 0]) (.fin (819 / 8192))] := by
  decide +kernel

/-- V-EH36: an underflow keeps its sign. -/
theorem test_step_encodeHalf_underflow :
    answer (bits [0, 0, 0] ++ serialize 0xBE60000000000000 64) =
      some [.okEncode (serialize 0x8000 16) (.zero true)] := by decide +kernel

/-- V-EB23: rounded twice. -/
theorem test_step_encodeBfloat_twice :
    answer (bits [0, 0, 1] ++ serialize 0x3FF02FFFFFC00000 64) =
      some [.okEncode (serialize 0x3F82 16) (.fin (65 / 64))] := by decide +kernel

/-- V-EB29: the carry into the exponent. -/
theorem test_step_encodeBfloat_overflow :
    answer (bits [0, 0, 1] ++ serialize 0xC7EFF00000000000 64) =
      some [.okEncode (serialize 0xFF80 16) (.inf true)] := by decide +kernel

/-- V-ES17: a tie to even. -/
theorem test_step_encodeSingle_tie :
    answer (bits [0, 1, 0] ++ serialize 0x4170000030000000 64) =
      some [.okEncode (serialize 0x4B800002 32) (.fin 16777220)] := by decide +kernel

/-- V-ES19: just below the overflow threshold. -/
theorem test_step_encodeSingle_largest :
    answer (bits [0, 1, 0] ++ serialize 0x47EFFFFFEFFFFFFF 64) =
      some [.okEncode (serialize 0x7F7FFFFF 32) (.fin (16777215 * 2 ^ 104))] := by decide +kernel

/-- V-X9. -/
theorem test_step_encodeRsvd3 :
    answer (bits [0, 1, 1] ++ serialize 0x3FF0000000000000 64) = some [.error .invalidFormat] := by
  decide +kernel

/-- V-DH10: the largest subnormal half. -/
theorem test_step_decodeHalf_subnormal :
    answer (bits [1, 0, 0] ++ serialize 0x03FF 16) = some [.okDecode (.fin (1023 / 16777216))] := by
  decide +kernel

/-- V-X1: one symbol short. -/
theorem test_step_decodeHalf_short :
    answer (bits [1, 0, 0] ++ bits [0, 0, 1, 1, 1, 1, 0, 0, 0, 0, 0, 0, 0, 0, 0]) =
      some [.error .malformedBitString] := by decide +kernel

/-- V-DB17: the frame that is -5/2 in half is -8 in bfloat. -/
theorem test_step_decodeBfloat :
    answer (bits [1, 0, 1] ++ serialize 0xC100 16) = some [.okDecode (.fin (-8))] := by decide +kernel

/-- V-DB13. -/
theorem test_step_decodeBfloat_nan :
    answer (bits [1, 0, 1] ++ serialize 0x7F81 16) = some [.okDecode .nan] := by decide +kernel

/-- V-DS3. -/
theorem test_step_decodeSingle :
    answer (bits [1, 1, 0] ++ serialize 0x3DCCCCCD 32) =
      some [.okDecode (.fin (13421773 / 134217728))] := by decide +kernel

/-- V-X8: one symbol long. -/
theorem test_step_decodeSingle_long :
    answer (bits [1, 1, 0] ++ serialize 0x7F000001 33) = some [.error .malformedBitString] := by
  decide +kernel

/-- V-X12: the format is checked first. -/
theorem test_step_decodeRsvd3 : answer (bits [1, 1, 1]) = some [.error .invalidFormat] := by
  decide +kernel

/-- V-DH3, V-EH40: the carrier of `val_out`, and of a value below `2^-1022`. -/
theorem test_valOut_carrier :
    valOut (.okDecode (.fin (819 / 8192))) = some 0x3FB9980000000000#64 ∧
    b64OfVal (.fin (-1 / 2 ^ 1074)) = 0x8000000000000001#64 := by decide +kernel

/-! ### Witnesses: the hypotheses of each obligation, met -/

/-- A state with two commands presented, the second cut short. -/
def twoPresented : State := ⟨[bits [1, 1, 1], bits [1, 1]], [.error .invalidFormat]⟩

theorem test_hyp_StepRunsTheDecodedCommand :
    twoPresented.pending = bits [1, 1, 1] :: [bits [1, 1]] ∧
      decode (bits [1, 1, 1]) = .ok (.decodeRsvd3 []) := ⟨rfl, rfl⟩

theorem test_hyp_StepRestsOrRefusesByName :
    State.reset.pending = [] ∧
    (State.mk [bits [1, 1]] []).pending = bits [1, 1] :: [] ∧
      decode (bits [1, 1]) = .error (.headerIncomplete 2) := ⟨rfl, rfl, rfl⟩

theorem test_hyp_ResetCutsOutstandingCommands :
    decode (bits [1, 1, 1]) = .ok (.decodeRsvd3 []) := rfl

theorem test_hyp_EncodedCommandDecodesBack :
    (Instr.encodeHalf (.fin (1 / 2 ^ 1074))).onLink = true ∧
    (Instr.encodeSingle (.fin (2 ^ 1023 * (2 - 1 / 2 ^ 52)))).onLink = true ∧
    (Instr.encodeBfloat .nan).onLink = true ∧ (Instr.decodeRsvd3 []).onLink = true := by decide +kernel

theorem test_hyp_DecodedCommandEncodesBack :
    decode (bits [1, 0, 0, 1]) = .ok (.decodeHalf [true]) ∧
      ∀ f, Instr.decodeHalf [true] ≠ Instr.encodeOf f .nan := by
  refine ⟨rfl, fun f => ?_⟩
  match f with
  | none => simp [Instr.encodeOf]
  | some .half => simp [Instr.encodeOf]
  | some .bfloat => simp [Instr.encodeOf]
  | some .single => simp [Instr.encodeOf]

/-- One pair of fields for each of the five cases, at the ends of their ranges. -/
theorem test_hyp_CarrierReadsTheFiveCases :
    ∀ p ∈ [((0 : Nat), (0 : Nat)), (0, 2 ^ 52 - 1), (2047, 0), (2047, 2 ^ 52 - 1), (1, 0), (2046, 2 ^ 52 - 1)],
      p.1 < 2 ^ 11 ∧ p.2 < 2 ^ 52 := by decide +kernel

theorem test_hyp_CarrierMapsAreInverse :
    (Val.fin (1 / 2 ^ 1074)).onCarrier = true ∧ (Val.fin (2 ^ 1023 * (2 - 1 / 2 ^ 52))).onCarrier = true ∧
    valOfB64 0x0000000000000001#64 ≠ .nan ∧ valOfB64 0xFFF0000000000000#64 ≠ .nan := by decide +kernel

/-- The smallest and the largest magnitude of single. -/
theorem test_hyp_DecodedValuesFitTheCarrier :
    (serialize 1 32).length = (fs .single).totalBits ∧
    decodeValue (serialize 1 32) (fs .single) = .fin (1 / 2 ^ 149) ∧
    decodeValue (serialize 0x7F7FFFFF 32) (fs .single) = .fin (2 ^ 128 - 2 ^ 104) := by decide +kernel

theorem test_hyp_SerializeIsMostSignificantFirst : 2 ^ 16 - 1 < 2 ^ 16 ∧ 15 < 16 := by decide

theorem test_hyp_SplitCutsTheThreeFields :
    (List.replicate 8 true).length = (fs .bfloat).exponentBits ∧
    (List.replicate 7 false).length = (fs .bfloat).mantissaBits ∧
    (serialize 0x7F80 16).length = (fs .bfloat).totalBits := by decide

/-- The tie of V-R3: 1 is as near to 3/2 as the even 2. -/
theorem test_hyp_RneIntIsNearestEven :
    (0 : ℚ) ≤ 3 / 2 ∧ (1 : ℤ) ≠ rneInt (3 / 2) ∧
      |(3 : ℚ) / 2 - rneInt (3 / 2)| = |(3 : ℚ) / 2 - (1 : ℤ)| := by
  have h : rneInt (3 / 2) = 2 := by decide +kernel
  rw [h]; refine ⟨by norm_num, by norm_num, ?_⟩
  rw [show (3 : ℚ) / 2 - (2 : ℕ) = -(1 / 2) by norm_num,
    show (3 : ℚ) / 2 - (1 : ℤ) = 1 / 2 by norm_num, abs_neg]

/-- V-N4 even, V-N6 odd. -/
theorem test_hyp_NarrowingTieGoesToEven :
    (0x3F808000#32).extractLsb' 0 16 = 0x8000#16 ∧
      ((0x3F808000#32).extractLsb' 16 16).getLsbD 0 = false ∧
    (0x3F818000#32).extractLsb' 0 16 = 0x8000#16 ∧
      ((0x3F818000#32).extractLsb' 16 16).getLsbD 0 = true := by decide

/-- V-N24 and V-N25, V-N28, V-N26 and V-N27: the three clauses at their edges. -/
theorem test_hyp_NarrowingOfNanPatterns :
    ((0 : Nat) = 0 ∧ (0x8000 : Nat) ≤ 0x8000 ∧ (0x8000 : Nat) ≠ 0 ∧ (0x8000 : Nat) < 2 ^ 16) ∧
    ((0x7F : Nat) = 0x7F ∧ (0x7F : Nat) < 2 ^ 7 ∧ (0x8000 : Nat) ≤ 0x8000) ∧
    (¬ ((0 : Nat) = 0 ∧ (0x8001 : Nat) ≤ 0x8000) ∧ ¬ ((0 : Nat) = 0x7F ∧ (0x8000 : Nat) ≤ 0x8001)) ∧
    (¬ ((0x7F : Nat) = 0 ∧ (0x7FFF : Nat) ≤ 0x8000) ∧
      ¬ ((0x7F : Nat) = 0x7F ∧ (0x8000 : Nat) ≤ 0x7FFF)) := by decide

theorem test_hyp_NarrowingCarriesIntoInfinity :
    (0x7FFF : Nat) < 2 ^ 16 ∧ (0x8000 : Nat) < 2 ^ 16 ∧ (0xFFFF : Nat) < 2 ^ 16 := by decide

/-- One pattern for each case of the match. -/
theorem test_hyp_NarrowingRoundsOntoTheBfloatGrid :
    decodeValue (serialize (0x80000000#32).toNat 32) (fs .single) = .zero true ∧
    decodeValue (serialize (0x7F800000#32).toNat 32) (fs .single) = .inf false ∧
    decodeValue (serialize (0x00000001#32).toNat 32) (fs .single) = .fin (1 / 2 ^ 149) ∧
    decodeValue (serialize (0x7F800001#32).toNat 32) (fs .single) = .nan := by decide +kernel

theorem test_hyp_EncodeReservedRaisesInvalidFormat :
    exec (Instr.encodeOf none (.fin 1)) State.reset =
      .next (State.reset.deliver (.error .invalidFormat)) := rfl

/-- V-EH36: a finite number that rounds to a zero. -/
theorem test_hyp_ZeroEncodesWithItsSign :
    (-1 / 2 ^ 25 : ℚ) ≠ 0 ∧ decodeValue (frameOf .half (.fin (-1 / 2 ^ 25))) (fs .half) = .zero true := by
  decide +kernel

theorem test_hyp_InfinityEncodesWithItsSign :
    (65520 : ℚ) ≤ |65520| ∧ (2 ^ 127 * (2 - (1 / 2) ^ 8) : ℚ) ≤ |2 ^ 127 * (2 - (1 / 2) ^ 8)| ∧
      (2 ^ 128 - 2 ^ 103 : ℚ) ≤ |-(2 ^ 128 - 2 ^ 103)| := by norm_num

theorem test_hyp_HalfEncodesTheNearest :
    (65519 : ℚ) ≠ 0 ∧ |(65519 : ℚ)| < 65520 ∧ (-1 / 2 ^ 30 : ℚ) ≠ 0 ∧ |(-1 / 2 ^ 30 : ℚ)| < 65520 := by
  norm_num

theorem test_hyp_SingleEncodesTheNearest :
    (2 ^ 128 - 2 ^ 103 - 1 : ℚ) ≠ 0 ∧ |(2 ^ 128 - 2 ^ 103 - 1 : ℚ)| < 2 ^ 128 - 2 ^ 103 := by norm_num

theorem test_hyp_OverflowExactlyAtTheThreshold :
    (65519 : ℚ) ≠ 0 ∧ |(65519 : ℚ)| < 65520 ∧
      decodeValue (frameOf .half (.fin (-65520))) (fs .half) = .inf true := by
  refine ⟨by norm_num, by norm_num, by decide +kernel⟩

theorem test_hyp_UnderflowExactlyAtTheThreshold :
    (1 / 2 ^ 25 : ℚ) ≠ 0 ∧ decodeValue (frameOf .half (.fin (1 / 2 ^ 25))) (fs .half) = .zero false ∧
      decodeValue (frameOf .single (.fin (1 / 2 ^ 150))) (fs .single) = .zero false := by decide +kernel

theorem test_hyp_EncodeKeepsTheSign :
    (Val.fin (-1 / 2 ^ 25)).wf = true ∧ true = decide ((-1 / 2 ^ 25 : ℚ) < 0) ∧
      (Val.zero true).wf = true ∧ (Val.inf false).wf = true := by decide +kernel

theorem test_hyp_EncodeIsIdempotent : (Val.fin (1 / 10)).wf = true ∧ Val.nan.wf = true := by
  decide +kernel

theorem test_hyp_SmallIntegersEncodeExactly :
    (-2 ^ 11 : ℤ) ≠ 0 ∧ |(-2 ^ 11 : ℤ)| ≤ 2 ^ 11 ∧ |(2 ^ 8 : ℤ)| ≤ 2 ^ 8 ∧ |(2 ^ 24 : ℤ)| ≤ 2 ^ 24 := by
  decide +kernel

/-- One mantissa and exponent field of half for each of the five clauses. -/
theorem test_hyp_DecodeGivesTheFiveCases :
    (true ∉ List.replicate 5 false ∧ true ∉ List.replicate 10 false) ∧
    (true ∉ List.replicate 5 false ∧ true ∈ List.replicate 9 false ++ [true]) ∧
    (false ∉ List.replicate 5 true ∧ true ∉ List.replicate 10 false) ∧
    (false ∉ List.replicate 5 true ∧ true ∈ List.replicate 9 false ++ [true]) ∧
    (true ∈ List.replicate 4 true ++ [false] ∧ false ∈ List.replicate 4 true ++ [false]) ∧
    (List.replicate 4 true ++ [false]).length = (fs .half).exponentBits ∧
    (List.replicate 9 false ++ [true]).length = (fs .half).mantissaBits := by decide

/-- V-X1, V-X2, V-X3, V-X5, V-X8. -/
theorem test_hyp_DecodeRefusesOtherLengths :
    (List.replicate 15 false).length ≠ 16 ∧ (List.replicate 17 false).length ≠ 16 ∧
      ([] : BitString).length ≠ 16 ∧ (List.replicate 32 false).length ≠ 16 ∧
      (List.replicate 33 false).length ≠ 32 := by decide

theorem test_hyp_DecodeAcceptsEveryFrame :
    (serialize 0xFFFF 16).length = 16 ∧ (serialize 0xFFFFFFFF 32).length = 32 := by decide

theorem test_hyp_BfloatDecodesAsShiftedSingle : (0xFFFF : Nat) < 2 ^ 16 := by decide

/-- The largest finite bfloat, and a second frame that decodes to the same value: itself. -/
theorem test_hyp_DecodeThenEncodeKeepsTheFrame :
    (serialize 0x7F7F 16).length = (fs .bfloat).totalBits ∧
    decodeValue (serialize 0x7F7F 16) (fs .bfloat) ≠ .nan := by decide +kernel

theorem test_hyp_RunIsThePointwiseImage :
    [bits [1, 1, 1], bits [1, 0, 0]].map decode =
      [Instr.decodeRsvd3 [], Instr.decodeHalf []].map .ok := rfl

theorem test_hyp_StepKeepsResponsesWhole :
    step (State.mk [bits [1, 1, 1]] []) = .next ⟨[], [.error .invalidFormat]⟩ ∧
      AllWhole (State.mk [bits [1, 1, 1]] []) ∧ Ready (State.mk [bits [1, 1, 1]] []) := by
  refine ⟨rfl, fun r h => by simp at h, fun b h => ?_⟩
  rw [List.mem_singleton.mp h]; exact ⟨.decodeRsvd3 [], rfl⟩

theorem test_hyp_StepAnswersExactlyOneCommand :
    (State.mk [bits [1, 1, 1]] []).pending = bits [1, 1, 1] :: [] ∧
      Ready (State.mk [bits [1, 1, 1]] []) :=
  ⟨rfl, test_hyp_StepKeepsResponsesWhole.2.2⟩

theorem test_hyp_ReadyStatesAreSafe : Ready (State.mk [bits [1, 1, 1]] []) :=
  test_hyp_StepKeepsResponsesWhole.2.2

theorem test_hyp_FailedCommandLeavesNothing :
    exec (.decodeHalf []) State.reset = .next (State.reset.deliver (.error .malformedBitString)) := rfl

end Sys2Proof.Tests
end

section
/-! The descriptors of the formats (`10_state.md` R24, R25). -/

namespace Sys2Proof.Machine

/-- R24: the sign takes one bit in every format. -/
@[simp] theorem fs_signBits (f : Format) : (fs f).signBits = 1 := by cases f <;> rfl

/-- Settles O1: the sign takes one bit, and `fs_totalBits` counts one bit beside the exponent and
mantissa fields. -/
theorem descriptorWidthsAddUp : Obligations.DescriptorWidthsAddUp := by
  intro f
  rw [fs_signBits, fs_totalBits]

end Sys2Proof.Machine
end

section
/-! Ties in the rounding unit (`41_rounding_unit.md` R102, R113). -/

namespace Sys2Proof.Machine

/-- Of two different integers, one within a half of `x` leaves the other at least a half away. -/
theorem half_le_abs_sub_of_ne {x : ℚ} {n k : ℤ} (hne : k ≠ n) (hn : |x - n| ≤ 1 / 2) :
    1 / 2 ≤ |x - k| := by
  have hgap : (1 : ℚ) ≤ |(k : ℚ) - n| := by
    exact_mod_cast Int.one_le_abs (sub_ne_zero.mpr hne)
  have htri : |(k : ℚ) - n| ≤ |(k : ℚ) - x| + |x - n| := abs_sub_le _ _ _
  rw [abs_sub_comm (k : ℚ) x] at htri
  linarith

/-- Settles O17: `rneInt x` is within a half of `x` (`rneInt_spec`), so every other integer is at
least a half away, and one as near makes both distances a half. -/
theorem rneIntIsNearestEven : Obligations.RneIntIsNearestEven := by
  intro x hx
  obtain ⟨hnear, heven⟩ := rneInt_spec hx
  have hother : ∀ k : ℤ, k ≠ rneInt x → 1 / 2 ≤ |x - k| := fun k hk =>
    half_le_abs_sub_of_ne hk (by exact_mod_cast hnear)
  refine ⟨fun k => ?_, fun k hk htie => heven (le_antisymm hnear (htie ▸ hother k hk))⟩
  by_cases hk : k = rneInt x
  · rw [hk, Int.cast_natCast]
  · exact hnear.trans (hother k hk)

/-- R113: on a tie the increment is the lowest bit of the upper half. -/
theorem narrow16_of_tie {P32 : BitVec 32} (h : P32.extractLsb' 0 16 = 0x8000#16) :
    narrow16 P32 = P32.extractLsb' 16 16 +
      BitVec.ofNat 16 ((P32.extractLsb' 16 16).getLsbD 0).toNat := by
  have hround : (0x8000#16).getLsbD 15 = true := by decide
  have hrest : ¬ 0x8000#16 &&& 0x7FFF#16 ≠ 0#16 := by decide
  simp only [narrow16, h, if_pos hround, if_neg hrest]

/-- Settles O18: `narrow16_of_tie` at an upper half whose lowest bit is 0, and at one whose lowest
bit is 1. -/
theorem narrowingTieGoesToEven : Obligations.NarrowingTieGoesToEven := by
  intro P32 htie
  rw [narrow16_of_tie htie]
  constructor <;> intro hbit <;> rw [hbit]
  · exact BitVec.add_zero _
  · rfl

end Sys2Proof.Machine
end

section
/-! The response of an ENCODE as a whole (`42_int_to_fp_encoder.md` R128, R130, R131). -/

namespace Sys2Proof.Machine

/-- R73: every carrier pattern reads as a value of R14. -/
theorem valOfB64_wf (p : Carrier) : (valOfB64 p).wf = true := valueOfFields_wf ..

/-- Settles O22: carrier patterns read by the five cases (`valOfB64_wf`), and `exec_encodeOf` gives
the response of each format for any value, with a frame of the format's length. -/
theorem encodeIsTotal : Obligations.EncodeIsTotal := by
  refine ⟨valOfB64_wf, fun v s => ⟨?half, ?bfloat, ?single⟩⟩
  case half => exact ⟨frameOf .half v, frameOf_length .half v, exec_encodeOf .half v s⟩
  case bfloat => exact ⟨frameOf .bfloat v, frameOf_length .bfloat v, exec_encodeOf .bfloat v s⟩
  case single => exact ⟨frameOf .single v, frameOf_length .single v, exec_encodeOf .single v s⟩

/-- Settles O34: ENCODE delivers its frame and what that frame decodes to, and the frame has the
length DECODE accepts. -/
theorem encodeThenDecodeRoundTrips : Obligations.EncodeThenDecodeRoundTrips := by
  intro f v
  exact ⟨frameOf f v, decodeValue (frameOf f v) (fs f), fun st st' =>
    ⟨exec_encodeOf f v st, exec_decodeOf_of_length f (frameOf_length f v) st'⟩⟩

end Sys2Proof.Machine
end

section
/-! Zeros in the encoder (`42_int_to_fp_encoder.md` R125). -/

namespace Sys2Proof.Machine

/-- A field of zeros. -/
@[simp] theorem serialize_zero (W : Nat) : serialize 0 W = List.replicate W false := by
  induction W with
  | zero => rfl
  | succ W ih => rw [serialize, Nat.zero_testBit, ih, List.replicate_succ]

/-- The frame whose magnitude bits are 0: the sign, then zeros. -/
theorem serialize_sign (f : Format) (s : Symbol) :
    serialize (s.toNat * 2 ^ ((fs f).exponentBits + (fs f).mantissaBits)) (fs f).totalBits =
      s :: List.replicate ((fs f).totalBits - 1) false := by
  have hsign : serialize s.toNat 1 = [s] := by cases s <;> rfl
  have h := serialize_append s.toNat 1
    (show 0 < 2 ^ ((fs f).exponentBits + (fs f).mantissaBits) by positivity)
  rw [hsign, serialize_zero, Nat.add_zero] at h
  rw [fs_totalBits, Nat.add_assoc, h, Nat.add_sub_cancel_left, List.singleton_append]

/-- A frame that is no NaN decodes to a zero only when its magnitude bits are 0, and then to the
zero of its own sign. -/
theorem decodeValue_eq_zero_iff (f : Format) (s t : Symbol) {P : Nat}
    (hP : P ≤ (2 ^ (fs f).exponentBits - 1) * 2 ^ (fs f).mantissaBits) :
    decodeValue (serialize (t.toNat * 2 ^ ((fs f).exponentBits + (fs f).mantissaBits) + P)
        (fs f).totalBits) (fs f) = .zero s ↔ P = 0 ∧ s = t := by
  have hinf : (2 ^ (fs f).exponentBits - 1) * 2 ^ (fs f).mantissaBits ≠ 0 := by
    cases f <;> decide
  rw [decodeValue_not_nan f t hP]
  split_ifs with htop hzero
  · simp [htop, hinf]
  · simp [hzero, eq_comm]
  · simp [hzero]

/-- R125: the frame of a zero. -/
theorem frameOf_zero (f : Format) (s : Symbol) :
    frameOf f (.zero s) = s :: List.replicate ((fs f).totalBits - 1) false := by
  rw [frameOf, patternOf_zero, serialize_sign]

/-- The frame of a zero decodes to that zero. -/
theorem decodeValue_frameOf_zero (f : Format) (s : Symbol) :
    decodeValue (frameOf f (.zero s)) (fs f) = .zero s := by
  rw [frameOf, patternOf_zero]
  exact (decodeValue_eq_zero_iff f s s (Nat.zero_le _)).mpr ⟨rfl, rfl⟩

/-- R125: a finite number whose frame decodes to a zero has the frame of the zero of its sign. -/
theorem frameOf_fin_of_decodes_zero {f : Format} {q : ℚ} (hq : q ≠ 0) {s : Symbol}
    (h : decodeValue (frameOf f (.fin q)) (fs f) = .zero s) :
    s = decide (q < 0) ∧ frameOf f (.fin q) = frameOf f (.zero s) := by
  obtain ⟨P, hP, hpat⟩ := patternOf_fin f hq
  rw [frameOf, hpat] at h
  obtain ⟨rfl, rfl⟩ := (decodeValue_eq_zero_iff f s _ hP).mp h
  exact ⟨rfl, by rw [frameOf, frameOf, hpat, patternOf_zero, Nat.add_zero]⟩

/-- Settles O24: `exec_encodeOf` delivers the frame and what it decodes to; `frameOf_zero` and
`decodeValue_frameOf_zero` say what these are for a zero, and `frameOf_fin_of_decodes_zero` brings a
finite number that rounds to a zero back to that frame. -/
theorem zeroEncodesWithItsSign : Obligations.ZeroEncodesWithItsSign := by
  refine fun f st => ⟨fun s => ?zero, fun q hq => ?finite⟩
  case zero => rw [exec_encodeOf, decodeValue_frameOf_zero, frameOf_zero]
  case finite =>
    refine ⟨_, _, exec_encodeOf f (.fin q) st, fun s hs => ?_⟩
    obtain ⟨hsign, hframe⟩ := frameOf_fin_of_decodes_zero hq hs
    exact ⟨hsign, hframe.trans (frameOf_zero f s)⟩

end Sys2Proof.Machine
end

section
/-! The order of the serialiser's symbols (`43_bit_serializer.md` R150). -/

namespace Sys2Proof.Machine

/-- R150: most significant bit first. -/
theorem serialize_getElem? (P : Nat) {W i : Nat} (hi : i < W) :
    (serialize P W)[i]? = some (P.testBit (W - 1 - i)) := by
  induction W generalizing i with
  | zero => omega
  | succ W ih =>
    cases i with
    | zero => rfl
    | succ i =>
      have hpos : W + 1 - 1 - (i + 1) = W - 1 - i := by omega
      rw [serialize, List.getElem?_cons_succ, ih (Nat.lt_of_succ_lt_succ hi), hpos]

/-- Settles O14: `serialize_length` counts the symbols, and `serialize_getElem?` says which bit each
of them is. The rule holds for every `P`: the serialiser drops what stands above bit `W - 1`. -/
theorem serializeIsMostSignificantFirst : Obligations.SerializeIsMostSignificantFirst := by
  refine fun P W _ => ⟨serialize_length P W, fun i hi => ?_⟩
  rw [serialize_getElem? P hi, Nat.testBit_eq_decide_div_mod_eq]

end Sys2Proof.Machine
end

section
/-! The fields of a frame and the length check (`44_bit_deserializer.md` R160, R161). -/

namespace Sys2Proof.Machine

/-- The symbols before the last ones spell the number above them. -/
theorem uint_append_div (xs ys : BitString) : uint (xs ++ ys) / 2 ^ ys.length = uint xs := by
  have hpos : 0 < 2 ^ ys.length := by positivity
  rw [uint_append, Nat.mul_comm, Nat.mul_add_div hpos, Nat.div_eq_of_lt (uint_lt ys), Nat.add_zero]

/-- The last symbols spell the number below the others. -/
theorem uint_append_mod (xs ys : BitString) : uint (xs ++ ys) % 2 ^ ys.length = uint ys := by
  rw [uint_append, Nat.mul_add_mod_self_right, Nat.mod_eq_of_lt (uint_lt ys)]

/-- The first symbol is the top bit. -/
theorem testBit_uint_cons (s : Symbol) (bs : BitString) :
    (uint (s :: bs)).testBit bs.length = s := by
  rw [uint_cons, Nat.mul_comm, Nat.testBit_two_pow_mul_add _ (uint_lt bs)]
  cases s <;> simp

/-- Every frame of a format is a sign, exponent symbols and mantissa symbols. -/
theorem exists_frame_fields (f : Format) {bs : BitString} (h : bs.length = (fs f).totalBits) :
    ∃ (s : Symbol) (xs ms : BitString), xs.length = (fs f).exponentBits ∧
      ms.length = (fs f).mantissaBits ∧ bs = s :: (xs ++ ms) := by
  rw [fs_totalBits] at h
  match bs with
  | [] => rw [List.length_nil] at h; omega
  | s :: t =>
    rw [List.length_cons] at h
    exact ⟨s, t.take (fs f).exponentBits, t.drop (fs f).exponentBits,
      List.length_take_of_le (by omega), by rw [List.length_drop]; omega,
      by rw [List.take_append_drop]⟩

/-- Settles O16: `split_append` splits a frame written as its three fields, and every frame is so
written (`exists_frame_fields`); each field is read off the pattern as the top bit, or as what is
left after the symbols behind and before it are divided off. -/
theorem splitCutsTheThreeFields : Obligations.SplitCutsTheThreeFields := by
  refine fun f => ⟨fun s xs ms hx hm => split_append (fs f) s hx hm, fun bs hbs => ?_⟩
  obtain ⟨s, xs, ms, hx, hm, rfl⟩ := exists_frame_fields f hbs
  have hsign : (uint (s :: (xs ++ ms))).testBit (xs.length + ms.length) = s := by
    rw [← List.length_append, testBit_uint_cons]
  have hexp : uint (s :: (xs ++ ms)) / 2 ^ ms.length % 2 ^ xs.length = uint xs := by
    rw [← List.cons_append, uint_append_div, ← List.singleton_append, uint_append_mod]
  have hman : uint (s :: (xs ++ ms)) % 2 ^ ms.length = uint ms := by
    rw [← List.cons_append, uint_append_mod]
  rw [split_append (fs f) s hx hm, ← hx, ← hm, hsign, hexp, hman]

/-- R160: DECODE of a frame of another length, in any of the three formats. -/
theorem exec_decodeOf_of_length_ne (f : Format) {bs : BitString}
    (h : bs.length ≠ (fs f).totalBits) (s : State) :
    exec (.decodeOf (some f) bs) s = .next (s.deliver (.error .malformedBitString)) := by
  rw [exec_decodeOf, if_neg h]

/-- Settles O38: `exec_decodeOf_of_length_ne` at each of the three formats. -/
theorem decodeRefusesOtherLengths : Obligations.DecodeRefusesOtherLengths := by
  refine fun bs s => ⟨fun h => ?half, fun h => ?bfloat, fun h => ?single⟩
  case half => exact exec_decodeOf_of_length_ne .half h s
  case bfloat => exact exec_decodeOf_of_length_ne .bfloat h s
  case single => exact exec_decodeOf_of_length_ne .single h s

end Sys2Proof.Machine
end

section
/-! The five cases of a frame and the shift form of bfloat (`45_fp_to_int_decoder.md` R174 to R179). -/

namespace Sys2Proof.Machine

/-- R174: both fields 0. -/
theorem valueOfFields_zero (E M bias : Nat) (s : Symbol) :
    valueOfFields E M bias s 0 0 = .zero s := rfl

/-- R175: exponent field 0 and a mantissa, without a leading 1. -/
theorem valueOfFields_subnormal (E M bias : Nat) (s : Symbol) {m : Nat} (hm : m ≠ 0) :
    valueOfFields E M bias s 0 m =
      .fin ((-1) ^ s.toNat * (2 : ℚ) ^ (1 - (bias : ℤ)) * (m / 2 ^ M)) := by
  rw [valueOfFields, if_pos rfl, if_neg hm, signed_eq_mul, pow2_eq_zpow, pow2_eq_zpow,
    zpow_natCast, mul_assoc]

/-- R178: any exponent field between the two special ones, with a leading 1. -/
theorem valueOfFields_normal {E x : Nat} (M bias : Nat) (s : Symbol) (m : Nat) (hzero : x ≠ 0)
    (hones : x ≠ 2 ^ E - 1) :
    valueOfFields E M bias s x m =
      .fin ((-1) ^ s.toNat * (2 : ℚ) ^ ((x : ℤ) - bias) * (1 + m / 2 ^ M)) := by
  rw [valueOfFields, if_neg hzero, if_neg hones, signed_eq_mul, pow2_eq_zpow, pow2_eq_zpow,
    zpow_natCast, mul_assoc]

/-- R170: the value of a frame written as its three fields. -/
theorem decodeValue_fields (f : FormatSpec) (s : Symbol) {xs ms : BitString}
    (hx : xs.length = f.exponentBits) (hm : ms.length = f.mantissaBits) :
    decodeValue (s :: (xs ++ ms)) f =
      valueOfFields f.exponentBits f.mantissaBits f.bias s (uint xs) (uint ms) := by
  rw [decodeValue, split_append f s hx hm]

/-- R170: DECODE of a frame written as its three fields. -/
theorem exec_decodeOf_fields (f : Format) (s : Symbol) {xs ms : BitString} (st : State)
    (hx : xs.length = (fs f).exponentBits) (hm : ms.length = (fs f).mantissaBits) :
    exec (.decodeOf (some f) (s :: (xs ++ ms))) st = .next (st.deliver (.okDecode
      (valueOfFields (fs f).exponentBits (fs f).mantissaBits (fs f).bias s
        (uint xs) (uint ms)))) := by
  have hlen : (s :: (xs ++ ms)).length = (fs f).totalBits := by
    rw [fs_totalBits, List.length_cons, List.length_append, hx, hm]; omega
  rw [exec_decodeOf_of_length f hlen, decodeValue_fields (fs f) s hx hm]

/-- Settles O37: DECODE reads the two fields as numbers (`exec_decodeOf_fields`); a field without a
1 reads 0 and one without a 0 reads all ones (`uint_eq_zero`, `uint_eq_ones`), which selects the
case of `valueOfFields`. -/
theorem decodeGivesTheFiveCases : Obligations.DecodeGivesTheFiveCases := by
  intro f s xs ms st hx hm
  have hE : 0 < (fs f).exponentBits := by have := fs_exp_two f; omega
  have hones : uint xs = 2 ^ (fs f).exponentBits - 1 ↔ false ∉ xs := hx ▸ uint_eq_ones
  have hman : true ∈ ms → uint ms ≠ 0 := fun h h0 => uint_eq_zero.mp h0 h
  dsimp only
  rw [exec_decodeOf_fields f s st hx hm]
  refine ⟨fun hxs hms => ?zero, fun hxs hms => ?subnormal, fun hxs hms => ?infinity,
    fun hxs hms => ⟨?nan, rfl⟩, fun hone hzero => ?normal⟩
  case zero => rw [uint_eq_zero.mpr hxs, uint_eq_zero.mpr hms, valueOfFields_zero]
  case subnormal => rw [uint_eq_zero.mpr hxs, valueOfFields_subnormal _ _ _ _ (hman hms)]
  case infinity => rw [hones.mpr hxs, valueOfFields_special s hE, if_pos (uint_eq_zero.mpr hms)]
  case nan => rw [hones.mpr hxs, valueOfFields_special s hE, if_neg (hman hms)]
  case normal =>
    rw [valueOfFields_normal _ _ _ _ (fun h => uint_eq_zero.mp h hone)
      (fun h => hones.mp h hzero)]

/-- `d` more mantissa bits, all 0, leave the value as it was, in each of the five cases. -/
theorem valueOfFields_mantissa_shift (E M d bias : Nat) (s : Symbol) (x m : Nat) :
    valueOfFields E (M + d) bias s x (m * 2 ^ d) = valueOfFields E M bias s x m := by
  have hzero : m * 2 ^ d = 0 ↔ m = 0 := by simp
  have hfrac : ((m * 2 ^ d : ℕ) : ℚ) / pow2 (M + d : ℕ) = m / pow2 M := by
    rw [pow2_eq_zpow, pow2_eq_zpow, zpow_natCast, zpow_natCast, pow_add, Nat.cast_mul,
      Nat.cast_pow, Nat.cast_ofNat, mul_div_mul_right _ _ (by positivity)]
  simp only [valueOfFields, hzero, hfrac]

/-- R179 on frames: bfloat and single have the same exponent width and bias, so 16 zeros behind a
bfloat frame only lengthen its mantissa. -/
theorem decodeValue_single_append_zeros {bs : BitString} (h : bs.length = 16) :
    decodeValue (bs ++ List.replicate 16 false) (fs .single) = decodeValue bs (fs .bfloat) := by
  obtain ⟨s, xs, ms, hx, hm, rfl⟩ := exists_frame_fields .bfloat h
  have hms : (ms ++ List.replicate 16 false).length = (fs .single).mantissaBits := by
    rw [List.length_append, hm, List.length_replicate]; rfl
  have hzeros : uint (List.replicate 16 false) = 0 := uint_eq_zero.mpr (by decide)
  have huint : uint (ms ++ List.replicate 16 false) = uint ms * 2 ^ 16 := by
    rw [uint_append, hzeros, List.length_replicate, Nat.add_zero]
  rw [List.cons_append, List.append_assoc, decodeValue_fields (fs .single) s hx hms,
    decodeValue_fields (fs .bfloat) s hx hm, huint]
  exact valueOfFields_mantissa_shift 8 7 16 127 s (uint xs) (uint ms)

/-- Shifting a pattern left puts zeros behind its symbols. -/
theorem serialize_shiftLeft (P W d : Nat) :
    serialize (P <<< d) (W + d) = serialize P W ++ List.replicate d false := by
  rw [Nat.shiftLeft_eq, ← serialize_zero, ← serialize_append P W (Nat.two_pow_pos d), Nat.add_zero]

/-- R179: the shift form for bfloat. -/
theorem decodeValue_shiftLeft (P : Nat) :
    decodeValue (serialize (P <<< 16) 32) (fs .single) =
      decodeValue (serialize P 16) (fs .bfloat) := by
  rw [show 32 = 16 + 16 from rfl, serialize_shiftLeft,
    decodeValue_single_append_zeros (serialize_length P 16)]

/-- Settles O41: `decodeValue_shiftLeft` is the identity on values, and both frames have the length
their DECODE accepts. The pattern `0x7C00`, the infinity of half, is a finite number when it is
shifted into single. -/
theorem bfloatDecodesAsShiftedSingle : Obligations.BfloatDecodesAsShiftedSingle := by
  refine ⟨fun P st _ => ⟨(decodeValue_shiftLeft P).symm, ?responses⟩, 0x7C00, by decide, ?half⟩
  case responses =>
    have hb := exec_decodeOf_of_length .bfloat (serialize_length P 16) st
    have hs := exec_decodeOf_of_length .single (serialize_length (P <<< 16) 32) st
    rw [decodeValue_shiftLeft] at hs
    exact hb.trans hs.symm
  case half => decide

end Sys2Proof.Machine
end

section
/-! The 64-bit carrier: the five cases, the two maps, and which numbers it holds
(`30_encoding.md` section 5, R73, R74). -/

namespace Sys2Proof.Machine

/-- R74: the carrier's reading of the pattern written for a value it holds. -/
theorem valOfB64_b64OfVal {v : Val} (h : v.onCarrier = true) : valOfB64 (b64OfVal v) = v := by
  cases v with
  | zero s => rw [b64OfVal, ← Nat.add_zero (_ * _), valOfB64_below s (by norm_num), if_pos rfl]
  | inf s => rw [b64OfVal, valOfB64_top s (by norm_num) le_rfl, if_pos rfl]
  | nan => exact valOfB64_nan isNan64_nan64Out
  | fin q =>
    obtain ⟨P, h0, hP, hq⟩ := exists_of_onCarrier h
    rw [hq, b64OfVal_magnitudeOf _ h0, valOfB64_below _ hP, if_neg h0]

/-- What a carrier pattern reads as, by its sign and magnitude bits. -/
theorem valOfB64_cases (s : Symbol) {P : Nat} (hP : P < 2 ^ 63) :
    let v := valOfB64 (BitVec.ofNat 64 (s.toNat * 2 ^ 63 + P))
    (P = 0 ∧ v = .zero s) ∨
    (P ≠ 0 ∧ P < 2047 * 2 ^ 52 ∧ v = .fin (signed s (magnitudeOf 52 1023 P))) ∨
    (P = 2047 * 2 ^ 52 ∧ v = .inf s) ∨ v = .nan := by
  dsimp only
  rcases lt_trichotomy P (2047 * 2 ^ 52) with h | h | h
  · rw [valOfB64_below s h]
    split_ifs with h0
    · exact .inl ⟨h0, rfl⟩
    · exact .inr (.inl ⟨h0, h, rfl⟩)
  · rw [valOfB64_top s hP h.ge, if_pos h]
    exact .inr (.inr (.inl ⟨h, rfl⟩))
  · rw [valOfB64_top s hP h.le, if_neg h.ne']
    exact .inr (.inr (.inr rfl))

/-- R74: the pattern written for what a pattern, no NaN, reads as. -/
theorem b64OfVal_valOfB64 {p : Carrier} (h : valOfB64 p ≠ .nan) : b64OfVal (valOfB64 p) = p := by
  obtain ⟨s, P, hP, rfl⟩ := carrier_cases p
  rcases valOfB64_cases s hP with ⟨h0, hv⟩ | ⟨h0, -, hv⟩ | ⟨htop, hv⟩ | hv
  · rw [hv, h0, b64OfVal, Nat.add_zero]
  · rw [hv, b64OfVal_magnitudeOf s h0]
  · rw [hv, htop, b64OfVal]
  · exact absurd hv h

/-- Settles O12: `valOfB64_b64OfVal`, `b64OfVal_valOfB64`, and `NAN64_OUT` is a NaN. -/
theorem carrierMapsAreInverse : Obligations.CarrierMapsAreInverse :=
  ⟨fun _ => valOfB64_b64OfVal, fun _ => b64OfVal_valOfB64, isNan64_nan64Out⟩

/-- Settles O11: `valOfB64_ofNat` cuts the two fields off the magnitude bits, and each case of
`valueOfFields` has its own lemma. -/
theorem carrierReadsTheFiveCases : Obligations.CarrierReadsTheFiveCases := by
  intro s x m hx hm
  have hfield : (x * 2 ^ 52 + m) / 2 ^ 52 = x := by omega
  have hmant : (x * 2 ^ 52 + m) % 2 ^ 52 = m := by omega
  rw [Nat.add_assoc, valOfB64_ofNat s (by omega), hfield, hmant]
  split_ifs with hzero hsub hinf hnan
  · obtain ⟨rfl, rfl⟩ := hzero
    exact valueOfFields_zero ..
  · subst hsub
    exact valueOfFields_subnormal 11 52 1023 s fun h => hzero ⟨rfl, h⟩
  · obtain ⟨rfl, rfl⟩ := hinf
    exact valueOfFields_special (E := 11) s (by norm_num)
  · subst hnan
    rw [show 2047 = 2 ^ 11 - 1 from rfl, valueOfFields_special s (by norm_num),
      if_neg fun h => hinf ⟨rfl, h⟩]
  · exact valueOfFields_normal 52 1023 s m hsub hnan

/-- R73: a number of at most 53 significant bits, the last of them worth `2^-1074` to `2^971`, is
held by the carrier. -/
theorem onCarrier_fin {q : ℚ} {n : ℕ} {j : ℤ} (hn0 : 0 < n) (hn : n < 2 ^ 53) (hlo : -1074 ≤ j)
    (hhi : j ≤ 971) (hq : |q| = n * (2 : ℚ) ^ j) : (Val.fin q).onCarrier = true := by
  have h2 : (2 : ℚ) ≠ 0 := by norm_num
  have hpos : 0 < |q| := by rw [hq]; positivity
  obtain ⟨hlow, -⟩ := floorLog2_spec hpos
  have hexp : floorLog2 |q| < 53 + j := by
    refine (zpow_lt_zpow_iff_right₀ (by norm_num : (1 : ℚ) < 2)).mp (hlow.trans_lt ?_)
    rw [hq, zpow_add₀ h2]
    gcongr
    exact_mod_cast hn
  have hint : |q| / pow2 (max (floorLog2 |q|) (-1022) - 52) =
      ((n * 2 ^ (j - (max (floorLog2 |q|) (-1022) - 52)).toNat : ℕ) : ℚ) := by
    rw [pow2_eq_zpow, div_eq_iff (by positivity), Nat.cast_mul, Nat.cast_pow, Nat.cast_ofNat,
      ← zpow_natCast, Int.toNat_of_nonneg (by omega), mul_assoc, ← zpow_add₀ h2, sub_add_cancel, hq]
  simp only [Val.onCarrier, magnitude_eq_abs, hint, Rat.den_natCast, Bool.and_eq_true,
    decide_eq_true_eq, beq_self_eq_true, and_true]
  exact ⟨abs_pos.mp hpos, by omega⟩

/-- R73: what a carrier pattern reads as is held by the carrier. -/
theorem valOfB64_onCarrier (p : Carrier) : (valOfB64 p).onCarrier = true := by
  obtain ⟨s, P, hP, rfl⟩ := carrier_cases p
  rcases valOfB64_cases s hP with ⟨-, hv⟩ | ⟨h0, hlt, hv⟩ | ⟨-, hv⟩ | hv <;> rw [hv]
  case inr.inl =>
    obtain ⟨k, n, hPk, hn0, hn, hk, hmag, -, -⟩ := carrier_scale h0
    have habs : |signed s (magnitudeOf 52 1023 P)| = n * (2 : ℚ) ^ ((k : ℤ) - 1074) := by
      rw [abs_signed, abs_of_pos (magnitudeOf_pos h0), hmag]
    exact onCarrier_fin hn0 hn (by omega) (by omega) habs
  all_goals rfl

end Sys2Proof.Machine
end

section
/-! Commands on the link (`30_encoding.md` sections 1 and 3; the order of the bits is log entry 1). -/

namespace Sys2Proof.Machine

/-- R62, R63: the format that the bits `fmt[1]` and `fmt[0]` select. -/
def formatOfBits : Symbol → Symbol → Option Format
  | false, false => some .half
  | false, true => some .bfloat
  | true, false => some .single
  | true, true => none

/-- R69: every format, and none, has its two bits. -/
theorem exists_formatOfBits (f : Option Format) : ∃ b1 b0, formatOfBits b1 b0 = f := by
  match f with
  | some .half => exact ⟨false, false, rfl⟩
  | some .bfloat => exact ⟨false, true, rfl⟩
  | some .single => exact ⟨true, false, rfl⟩
  | none => exact ⟨true, true, rfl⟩

/-- R64, R69: the four rows with `op = 0`. -/
theorem decode_encodeRow (b1 b0 : Symbol) (p : BitString) :
    decode (false :: b1 :: b0 :: p) = (readValue p).map (Instr.encodeOf (formatOfBits b1 b0)) := by
  cases b1 <;> cases b0 <;> rfl

/-- R65, R69: the four rows with `op = 1`. -/
theorem decode_decodeRow (b1 b0 : Symbol) (bs : BitString) :
    decode (true :: b1 :: b0 :: bs) = .ok (Instr.decodeOf (formatOfBits b1 b0) bs) := by
  cases b1 <;> cases b0 <;> rfl

/-- R61: a header cut short. -/
theorem decode_of_length_lt {bits : BitString} (h : bits.length < 3) :
    decode bits = .error (.headerIncomplete bits.length) := by
  match bits with
  | [] | [_] | [_, _] => simp [decode]
  | _ :: _ :: _ :: _ => simp only [List.length_cons] at h; omega

/-- R61: the bits of an ENCODE. -/
theorem encode_encodeRow (b1 b0 : Symbol) (v : Val) :
    encode (Instr.encodeOf (formatOfBits b1 b0) v) = false :: b1 :: b0 :: writeValue v := by
  rw [encode, serialize_header]
  cases b1 <;> cases b0 <;> rfl

/-- R61: the bits of a DECODE. -/
theorem encode_decodeRow (b1 b0 : Symbol) (bs : BitString) :
    encode (Instr.decodeOf (formatOfBits b1 b0) bs) = true :: b1 :: b0 :: bs := by
  rw [encode, serialize_header]
  cases b1 <;> cases b0 <;> rfl

@[simp] theorem wf_encodeOf (f : Option Format) (v : Val) : (Instr.encodeOf f v).wf = v.wf := by
  match f with
  | some .half | some .bfloat | some .single | none => rfl

@[simp] theorem wf_decodeOf (f : Option Format) (bs : BitString) :
    (Instr.decodeOf f bs).wf = true := by
  match f with
  | some .half | some .bfloat | some .single | none => rfl

@[simp] theorem onLink_encodeOf (f : Option Format) (v : Val) :
    (Instr.encodeOf f v).onLink = v.onCarrier := by
  match f with
  | some .half | some .bfloat | some .single | none => rfl

@[simp] theorem onLink_decodeOf (f : Option Format) (bs : BitString) :
    (Instr.decodeOf f bs).onLink = true := by
  match f with
  | some .half | some .bfloat | some .single | none => rfl

/-- R64: an ENCODE payload is read when it is 64 bits long, and never otherwise. -/
theorem readValue_eq_ok_iff {p : BitString} {v : Val} :
    readValue p = .ok v ↔ p.length = 64 ∧ valOfB64 (BitVec.ofNat 64 (uint p)) = v := by
  rw [readValue]
  split_ifs with h <;> simp [h]

/-- R64: the pattern that 64 bits spell is the one that is read. -/
theorem readValue_serialize {P : Nat} (hP : P < 2 ^ 64) :
    readValue (serialize P 64) = .ok (valOfB64 (BitVec.ofNat 64 P)) := by
  refine readValue_eq_ok_iff.mpr ⟨serialize_length _ _, ?_⟩
  rw [uint_serialize_mod, Nat.mod_eq_of_lt hP]

/-- R64, R74: a value that the carrier holds is read as it was written. -/
theorem readValue_writeValue {v : Val} (h : v.onCarrier = true) :
    readValue (writeValue v) = .ok v := by
  rw [writeValue, readValue_serialize (b64OfVal v).isLt, BitVec.ofNat_toNat, BitVec.setWidth_eq,
    valOfB64_b64OfVal h]

/-- R64, R74: the payload of a value read, no NaN, is written as it was. -/
theorem writeValue_of_readValue {p : BitString} {v : Val} (h : readValue p = .ok v)
    (hnan : v ≠ .nan) : writeValue v = p := by
  obtain ⟨hlen, rfl⟩ := readValue_eq_ok_iff.mp h
  have hlt : uint p < 2 ^ 64 := hlen ▸ uint_lt p
  rw [writeValue, b64OfVal_valOfB64 hnan, BitVec.toNat_ofNat, Nat.mod_eq_of_lt hlt, ← hlen,
    serialize_uint]

/-- Settles O9: both kinds of row decode by their two format bits, and an ENCODE's value reads as it
was written (`readValue_writeValue`). -/
theorem encodedCommandDecodesBack : Obligations.EncodedCommandDecodesBack := by
  intro i hi
  rcases instr_is_call i with ⟨f, v, rfl⟩ | ⟨f, bs, rfl⟩ <;>
    obtain ⟨b1, b0, rfl⟩ := exists_formatOfBits f
  · rw [onLink_encodeOf] at hi
    rw [encode_encodeRow, decode_encodeRow, readValue_writeValue hi]
    rfl
  · rw [encode_decodeRow, decode_decodeRow]

/-- R61, R77: what decodes is an ENCODE row whose payload reads as a value, or a DECODE row. -/
theorem decode_eq_ok {bits : BitString} {i : Instr} (h : decode bits = .ok i) :
    ∃ b1 b0, (∃ p v, bits = false :: b1 :: b0 :: p ∧ readValue p = .ok v ∧
        i = Instr.encodeOf (formatOfBits b1 b0) v) ∨
      (∃ bs, bits = true :: b1 :: b0 :: bs ∧ i = Instr.decodeOf (formatOfBits b1 b0) bs) := by
  match bits with
  | [] | [_] | [_, _] => rw [decode_of_length_lt (by simp)] at h; cases h
  | false :: b1 :: b0 :: p =>
    rw [decode_encodeRow] at h
    cases hp : readValue p with
    | error why => rw [hp] at h; cases h
    | ok v =>
      rw [hp] at h
      cases h
      exact ⟨b1, b0, .inl ⟨p, v, rfl, hp, rfl⟩⟩
  | true :: b1 :: b0 :: bs =>
    rw [decode_decodeRow] at h
    cases h
    exact ⟨b1, b0, .inr ⟨bs, rfl, rfl⟩⟩

/-- Settles O8: what decodes has the lengths of `decode_eq_ok`; of the other direction, an ENCODE's
payload is what is left of 67 bits. -/
theorem onlyBadLengthsAreRejected : Obligations.OnlyBadLengthsAreRejected := by
  intro bits
  constructor
  · rintro ⟨i, hi⟩
    obtain ⟨b1, b0, ⟨p, v, rfl, hp, -⟩ | ⟨bs, rfl, -⟩⟩ := decode_eq_ok hi
    · simp [(readValue_eq_ok_iff.mp hp).1]
    · simp
  · rintro ⟨hlen, hval⟩
    match bits with
    | [] | [_] | [_, _] => simp at hlen
    | false :: b1 :: b0 :: p =>
      have hp : p.length = 64 := by simpa using hval rfl
      rw [decode_encodeRow, readValue_eq_ok_iff.mpr ⟨hp, rfl⟩]
      exact ⟨_, rfl⟩
    | true :: b1 :: b0 :: bs => exact ⟨_, decode_decodeRow b1 b0 bs⟩

/-- Settles O10: for the ENCODE rows, every pattern reads as a well-formed value that the carrier holds
(`valOfB64_wf`, `valOfB64_onCarrier`), and one that is no NaN is written as it was. -/
theorem decodedCommandEncodesBack : Obligations.DecodedCommandEncodesBack := by
  intro bits i hi
  obtain ⟨b1, b0, ⟨p, v, rfl, hp, rfl⟩ | ⟨bs, rfl, rfl⟩⟩ := decode_eq_ok hi
  · obtain ⟨-, hv⟩ := readValue_eq_ok_iff.mp hp
    rw [wf_encodeOf, onLink_encodeOf, encode_encodeRow]
    refine ⟨hv ▸ valOfB64_wf _, hv ▸ valOfB64_onCarrier _, fun hnan => ?_⟩
    rw [writeValue_of_readValue hp fun h => hnan (formatOfBits b1 b0) (by rw [h])]
  · exact ⟨wf_decodeOf _ _, onLink_decodeOf _ _, fun _ => encode_decodeRow b1 b0 bs⟩

/-- R69: an ENCODE row decodes to the value that its 64-bit word reads as. -/
theorem decode_encodeWord (b1 b0 : Symbol) {P : Nat} (hP : P < 2 ^ 64) :
    decode ([false, b1, b0] ++ serialize P 64) =
      .ok (Instr.encodeOf (formatOfBits b1 b0) (valOfB64 (BitVec.ofNat 64 P))) := by
  rw [List.cons_append, List.cons_append, List.singleton_append, decode_encodeRow,
    readValue_serialize hP]
  rfl

/-- Settles O7: an ENCODE word decodes to the value its carrier pattern reads as, here 1, -0, the
infinity and a NaN; a DECODE word to the frame behind its header. -/
theorem opcodeMapWordsDecode : Obligations.OpcodeMapWordsDecode := by
  have hone : valOfB64 0x3FF0000000000000#64 = .fin 1 := by decide +kernel
  have hzero : valOfB64 0x8000000000000000#64 = .zero true := by decide +kernel
  have hinf : valOfB64 0x7FF0000000000000#64 = .inf false := by decide +kernel
  have hnan : valOfB64 0xFFF0000000000001#64 = .nan := by decide +kernel
  refine ⟨?half, ?bfloat, ?single, ?rsvd3, decode_decodeRow false false _,
    decode_decodeRow false true _, decode_decodeRow true false _, decode_decodeRow true true _⟩
  case half => rw [decode_encodeWord false false (by norm_num), hone]; rfl
  case bfloat => rw [decode_encodeWord false true (by norm_num), hzero]; rfl
  case single => rw [decode_encodeWord true false (by norm_num), hinf]; rfl
  case rsvd3 => rw [decode_encodeWord true true (by norm_num), hnan]; rfl

end Sys2Proof.Machine
end

section
/-! The response of every command, and the whole machine (`20_memory.md` section 4,
`60_exceptions.md`, `70_reset_and_hazards.md`). -/

namespace Sys2Proof.Machine

/-- R120: the response of ENCODE for a format, or for none. -/
def encodeResponse (v : Val) : Option Format → Response
  | some f => .okEncode (frameOf f v) (decodeValue (frameOf f v) (fs f))
  | none => .error .invalidFormat

/-- R170: the response of DECODE for a format, or for none. -/
def decodeResponse (bs : BitString) : Option Format → Response
  | some f =>
    if bs.length = (fs f).totalBits then .okDecode (decodeValue bs (fs f))
    else .error .malformedBitString
  | none => .error .invalidFormat

/-- R19: the response of each row. -/
def responseOf : Instr → Response
  | .encodeHalf v => encodeResponse v (some .half)
  | .encodeBfloat v => encodeResponse v (some .bfloat)
  | .encodeSingle v => encodeResponse v (some .single)
  | .encodeRsvd3 v => encodeResponse v none
  | .decodeHalf bs => decodeResponse bs (some .half)
  | .decodeBfloat bs => decodeResponse bs (some .bfloat)
  | .decodeSingle bs => decodeResponse bs (some .single)
  | .decodeRsvd3 bs => decodeResponse bs none

@[simp] theorem responseOf_encodeOf (f : Option Format) (v : Val) :
    responseOf (.encodeOf f v) = encodeResponse v f := by
  match f with
  | some .half | some .bfloat | some .single | none => rfl

@[simp] theorem responseOf_decodeOf (f : Option Format) (bs : BitString) :
    responseOf (.decodeOf f bs) = decodeResponse bs f := by
  match f with
  | some .half | some .bfloat | some .single | none => rfl

/-- Every instruction delivers its response and changes nothing else. -/
theorem exec_eq_deliver (i : Instr) (s : State) : exec i s = .next (s.deliver (responseOf i)) := by
  rcases instr_is_call i with ⟨_ | f, v, rfl⟩ | ⟨_ | f, bs, rfl⟩
  · rw [exec_encodeOf_none, responseOf_encodeOf, encodeResponse]
  · rw [exec_encodeOf, responseOf_encodeOf, encodeResponse]
  · rw [exec_decodeOf_none, responseOf_decodeOf, decodeResponse]
  · rw [exec_decodeOf, responseOf_decodeOf, decodeResponse]

/-- R47, R128: every response is whole. -/
theorem wholeResponse_responseOf (i : Instr) : WholeResponse (responseOf i) := by
  rcases instr_is_call i with ⟨_ | f, v, rfl⟩ | ⟨_ | f, bs, rfl⟩
  · rw [responseOf_encodeOf]; trivial
  · rw [responseOf_encodeOf]; exact ⟨f, frameOf_length f v, rfl⟩
  · rw [responseOf_decodeOf]; trivial
  · rw [responseOf_decodeOf, decodeResponse]
    split_ifs with h
    · exact ⟨f, bs, h, rfl⟩
    · trivial

/-- R31: the step on a command takes it and delivers its response. -/
theorem step_of_decode {s : State} {bits : BitString} {rest : List BitString} {i : Instr}
    (hs : s.pending = bits :: rest) (hd : decode bits = .ok i) :
    step s = .next ⟨rest, s.responses ++ [responseOf i]⟩ := by
  rw [step, fetch_of_cons hs]
  dsimp only
  rw [hd]
  exact exec_eq_deliver i _

/-- A step that answers a next state rested, or ran the oldest command. -/
theorem step_next_cases {s t : State} (h : step s = .next t) :
    t = s ∨ ∃ bits rest i, s.pending = bits :: rest ∧ decode bits = .ok i ∧
      t = ⟨rest, s.responses ++ [responseOf i]⟩ := by
  rcases step_cases s with ⟨-, hstep⟩ | ⟨bits, rest, i, hs, hd, -⟩ | ⟨_, _, _, -, -, hstep⟩
  · rw [hstep] at h
    exact .inl (by cases h; rfl)
  · rw [step_of_decode hs hd] at h
    exact .inr ⟨bits, rest, i, hs, hd, by cases h; rfl⟩
  · rw [hstep] at h
    cases h

/-- What a ready state presents is ready behind its oldest command. -/
theorem ready_tail {s : State} {bits : BitString} {rest : List BitString} {rs : List Response}
    (h : Ready s) (hs : s.pending = bits :: rest) : Ready ⟨rest, rs⟩ :=
  fun b hb => h b (hs ▸ List.mem_cons_of_mem bits hb)

/-- One more whole response keeps all whole. -/
theorem allWhole_append {s : State} {ps : List BitString} {r : Response} (h : AllWhole s)
    (hr : WholeResponse r) : AllWhole ⟨ps, s.responses ++ [r]⟩ := by
  intro x hx
  rcases List.mem_append.mp hx with hx | hx
  · exact h x hx
  · exact List.mem_singleton.mp hx ▸ hr

/-- Settles O45: a step rests, or takes one command and delivers one whole response. -/
theorem stepKeepsResponsesWhole : Obligations.StepKeepsResponsesWhole := by
  intro s t h
  rcases step_next_cases h with rfl | ⟨bits, rest, i, hs, -, rfl⟩
  · exact ⟨id, id⟩
  · exact ⟨fun hw => allWhole_append hw (wholeResponse_responseOf i), fun hr => ready_tail hr hs⟩

/-- Settles O43 by `exec_eq_deliver`. -/
theorem responseDependsOnlyOnTheCommand : Obligations.ResponseDependsOnlyOnTheCommand :=
  ⟨responseOf, exec_eq_deliver⟩

/-- Settles O44, by induction on the commands from any state: one step takes the first of them. -/
theorem runIsThePointwiseImage : Obligations.RunIsThePointwiseImage := by
  refine ⟨responseOf, fun s is hs => ?_⟩
  induction is generalizing s with
  | nil =>
    rw [List.map_nil, List.map_eq_nil_iff] at hs
    rw [List.map_nil, List.append_nil, ← hs]
    rfl
  | cons i is ih =>
    obtain ⟨bits, rest, hpend, hd, hrest⟩ := List.map_eq_cons_iff.mp hs
    rw [List.length_cons, run_succ_of_next _ (step_of_decode hpend hd), ih _ hrest, List.map_cons,
      List.append_assoc, List.singleton_append]

/-- Settles O46 by `step_of_decode` and `wholeResponse_responseOf`. -/
theorem stepAnswersExactlyOneCommand : Obligations.StepAnswersExactlyOneCommand := by
  intro s bits rest hs hready
  obtain ⟨i, hi⟩ := hready bits (hs ▸ List.mem_cons_self)
  exact ⟨responseOf i, wholeResponse_responseOf i, step_of_decode hs hi⟩

/-- A ready state steps to a ready state. -/
theorem exists_step_of_ready {s : State} (h : Ready s) : ∃ t, step s = .next t ∧ Ready t := by
  cases hs : s.pending with
  | nil => exact ⟨s, by rw [step, fetch_of_nil hs], h⟩
  | cons bits rest =>
    obtain ⟨i, hi⟩ := h bits (hs ▸ List.mem_cons_self)
    exact ⟨_, step_of_decode hs hi, ready_tail h hs⟩

/-- Settles O47, by induction on the number of steps. -/
theorem readyStatesAreSafe : Obligations.ReadyStatesAreSafe := by
  intro s hready n
  induction n generalizing s with
  | zero => exact ⟨s, rfl⟩
  | succ n ih =>
    obtain ⟨t, hstep, ht⟩ := exists_step_of_ready hready
    rw [run_succ_of_next n hstep]
    exact ih t ht

/-- Settles O48: the error is the command's own response, and so is every other. -/
theorem failedCommandLeavesNothing : Obligations.FailedCommandLeavesNothing := by
  intro i j e s hi
  rw [exec_eq_deliver, deliver_inj] at hi
  exact ⟨responseOf j, exec_eq_deliver j _, exec_eq_deliver j _, hi ▸ exec_eq_deliver i _⟩

/-- Settles O2: `select` computes on each of the four codes. -/
theorem selectReadsTheTable : Obligations.SelectReadsTheTable :=
  ⟨select_half, select_bfloat, select_single, select_rsvd3, fs_bias⟩

/-- With nothing presented a step rests (log entry 7). -/
theorem step_of_nil {s : State} (h : s.pending = []) : step s = .next s := by
  rw [step, fetch_of_nil h]

/-- Settles O3: both lists are empty, so that nothing in them can fail to be whole or a command. -/
theorem resetIsWholeAndReady : Obligations.ResetIsWholeAndReady :=
  ⟨State.reset_pending, State.reset_responses, fun _ h => absurd h List.not_mem_nil,
    fun _ h => absurd h List.not_mem_nil, step_of_nil State.reset_pending⟩

/-- Settles O4: `fetch` takes the oldest bits, and these decode. -/
theorem stepRunsTheDecodedCommand : Obligations.StepRunsTheDecodedCommand := by
  intro s bits rest i hs hd
  rw [step_of_decode hs hd, exec_eq_deliver]
  rfl

/-- Settles O5: `fetch` takes nothing, or bits that do not decode. -/
theorem stepRestsOrRefusesByName : Obligations.StepRestsOrRefusesByName := by
  refine fun s => ⟨step_of_nil, fun bits rest why hs hd => ?_⟩
  rw [step, fetch_of_cons hs]
  dsimp only
  rw [hd]

/-- Settles O6: the cut leaves nothing presented, so that a step rests and a command presented then is
the oldest. -/
theorem resetCutsOutstandingCommands : Obligations.ResetCutsOutstandingCommands :=
  fun s => ⟨State.cutByReset_responses s, step_of_nil (State.cutByReset_pending s),
    fun bits i hd => stepRunsTheDecodedCommand (s.cutByReset.present bits) bits [] i rfl hd⟩

/-- Settles O23: an ENCODE with a format delivers a frame, so an error is that of no format. -/
theorem encodeReservedRaisesInvalidFormat : Obligations.EncodeReservedRaisesInvalidFormat := by
  refine ⟨exec_encodeOf_none, fun f v s e h => ?_⟩
  cases f with
  | none =>
    rw [exec_encodeOf_none, deliver_inj] at h
    cases h
    exact ⟨rfl, rfl⟩
  | some f =>
    rw [exec_encodeOf, deliver_inj] at h
    cases h

/-- Settles O40: the format is selected before the length is looked at. -/
theorem decodeReservedRaisesInvalidFormat : Obligations.DecodeReservedRaisesInvalidFormat :=
  exec_decodeOf_none

/-- Every frame of a format decodes to a well-formed value, the same in every state. -/
theorem decode_accepts_frame (f : Format) {bs : BitString} (h : bs.length = (fs f).totalBits) :
    ∃ d : Val, d.wf = true ∧ ∀ s : State,
      exec (.decodeOf (some f) bs) s = .next (s.deliver (.okDecode d)) :=
  ⟨_, valueOfFields_wf .., exec_decodeOf_of_length f h⟩

/-- Settles O39: `decode_accepts_frame` at each of the three formats. -/
theorem decodeAcceptsEveryFrame : Obligations.DecodeAcceptsEveryFrame :=
  fun _ => ⟨decode_accepts_frame .half, decode_accepts_frame .bfloat, decode_accepts_frame .single⟩

/-- Settles O49: each form of response has its status and fields by definition, an error by its name. -/
theorem statusTellsWhichFieldsArePresent : Obligations.StatusTellsWhichFieldsArePresent := by
  refine ⟨fun _ _ => ⟨rfl, rfl, rfl⟩, fun _ => ⟨rfl, rfl, rfl⟩, fun _ => ⟨rfl, rfl⟩, rfl, rfl, rfl, rfl,
    rfl, fun r => ?_⟩
  match r with
  | .okEncode bs v => simp [valOut, bsOut, statusOf, statusCode]
  | .okDecode v => simp [valOut, bsOut, statusOf, statusCode]
  | .error .invalidFormat => simp [valOut, bsOut, statusOf, statusCode]
  | .error .malformedBitString => simp [valOut, bsOut, statusOf, statusCode]

end Sys2Proof.Machine
end

section
/-! Frames by sign and magnitude bits: decoding one, and encoding what it decodes to
(`42_int_to_fp_encoder.md`, `45_fp_to_int_decoder.md` section 4). -/

namespace Sys2Proof.Machine

/-- The magnitude bits of an infinity: exponent bits 1, mantissa bits 0. Above them stand the NaNs. -/
def infinityBits (f : Format) : Nat := (2 ^ (fs f).exponentBits - 1) * 2 ^ (fs f).mantissaBits

/-- The frame of a sign and magnitude bits. -/
def frameBits (f : Format) (s : Symbol) (P : Nat) : BitString :=
  serialize (s.toNat * 2 ^ ((fs f).exponentBits + (fs f).mantissaBits) + P) (fs f).totalBits

/-- The number that magnitude bits of a format stand for. -/
def magnitudeIn (f : Format) (P : Nat) : ℚ := magnitudeOf (fs f).mantissaBits (fs f).bias P

@[simp] theorem frameBits_length (f : Format) (s : Symbol) (P : Nat) :
    (frameBits f s P).length = (fs f).totalBits := serialize_length _ _

theorem infinityBits_lt (f : Format) :
    infinityBits f < 2 ^ ((fs f).exponentBits + (fs f).mantissaBits) := infinity_lt _ _

theorem infinityBits_pos (f : Format) : 0 < infinityBits f := by cases f <;> decide

@[simp] theorem magnitudeIn_zero (f : Format) : magnitudeIn f 0 = 0 := by
  simp [magnitudeIn, magnitudeOf]

theorem magnitudeIn_strictMono (f : Format) : StrictMono (magnitudeIn f) := magnitudeOf_mono _ _

theorem magnitudeIn_pos (f : Format) {P : Nat} (h : P ≠ 0) : 0 < magnitudeIn f P := magnitudeOf_pos h

theorem magnitudeIn_nonneg (f : Format) (P : Nat) : 0 ≤ magnitudeIn f P :=
  magnitudeIn_zero f ▸ (magnitudeIn_strictMono f).monotone (Nat.zero_le P)

/-- The first symbol is the sign. -/
theorem frameBits_head (f : Format) (s : Symbol) {P : Nat} (hP : P ≤ infinityBits f) :
    (frameBits f s P).head? = some s :=
  serialize_head s (by rw [fs_totalBits, Nat.add_assoc]) (hP.trans_lt (infinityBits_lt f))

/-- The last symbol is the lowest magnitude bit. -/
theorem frameBits_last (f : Format) (s : Symbol) (P : Nat) :
    (frameBits f s P).getLast? = some (P.testBit 0) := by
  have hpos : 0 < (fs f).exponentBits + (fs f).mantissaBits := by cases f <;> decide
  have heven : s.toNat * 2 ^ ((fs f).exponentBits + (fs f).mantissaBits) % 2 = 0 :=
    Nat.mod_eq_zero_of_dvd (dvd_mul_of_dvd_right (dvd_pow_self 2 hpos.ne') _)
  rw [frameBits, serialize_last _ _ (by rw [fs_totalBits]; omega), Nat.testBit_zero, Nat.testBit_zero,
    Nat.add_mod, heven, Nat.zero_add, Nat.mod_mod]

/-- Behind the infinity stand as many patterns as there are mantissa fields. -/
theorem infinityBits_add (f : Format) :
    infinityBits f + 2 ^ (fs f).mantissaBits = 2 ^ ((fs f).exponentBits + (fs f).mantissaBits) := by
  rw [infinityBits, ← Nat.succ_mul, Nat.succ_eq_add_one, Nat.sub_add_cancel Nat.one_le_two_pow, pow_add]

/-- What a frame decodes to, up to the infinity. -/
theorem decodeValue_frameBits (f : Format) (s : Symbol) {P : Nat} (hP : P ≤ infinityBits f) :
    decodeValue (frameBits f s P) (fs f) =
      if P = infinityBits f then .inf s
      else if P = 0 then .zero s
      else .fin (signed s (magnitudeIn f P)) := decodeValue_not_nan f s hP

theorem decodeValue_zeroBits (f : Format) (s : Symbol) :
    decodeValue (frameBits f s 0) (fs f) = .zero s := by
  rw [decodeValue_frameBits f s (Nat.zero_le _), if_neg (infinityBits_pos f).ne, if_pos rfl]

theorem decodeValue_finiteBits (f : Format) (s : Symbol) {P : Nat} (h0 : P ≠ 0)
    (hP : P < infinityBits f) :
    decodeValue (frameBits f s P) (fs f) = .fin (signed s (magnitudeIn f P)) := by
  rw [decodeValue_frameBits f s hP.le, if_neg hP.ne, if_neg h0]

theorem decodeValue_infinityBits (f : Format) (s : Symbol) :
    decodeValue (frameBits f s (infinityBits f)) (fs f) = .inf s := by
  rw [decodeValue_frameBits f s le_rfl, if_pos rfl]

theorem decodeValue_nanBits (f : Format) (s : Symbol) {m : Nat} (h0 : m ≠ 0)
    (hm : m < 2 ^ (fs f).mantissaBits) :
    decodeValue (frameBits f s (infinityBits f + m)) (fs f) = .nan := by
  have hE : 0 < (fs f).exponentBits := by have := fs_exp_two f; omega
  have hM : 0 < 2 ^ (fs f).mantissaBits := by positivity
  have hlt : infinityBits f + m < 2 ^ ((fs f).exponentBits + (fs f).mantissaBits) := by
    have := infinityBits_add f; omega
  rw [frameBits, decodeValue_serialize f s hlt, infinityBits, Nat.mul_comm, Nat.mul_add_div hM,
    Nat.mul_add_mod, Nat.div_eq_of_lt hm, Nat.mod_eq_of_lt hm, Nat.add_zero,
    valueOfFields_special s hE, if_neg h0]

/-- The magnitude bits of a zero, a finite number, an infinity or a NaN. -/
theorem magnitudeBits_cases (f : Format) {P : Nat}
    (hP : P < 2 ^ ((fs f).exponentBits + (fs f).mantissaBits)) :
    P = 0 ∨ (P ≠ 0 ∧ P < infinityBits f) ∨ P = infinityBits f ∨
      ∃ m, m ≠ 0 ∧ m < 2 ^ (fs f).mantissaBits ∧ P = infinityBits f + m := by
  rcases lt_trichotomy P (infinityBits f) with hlt | heq | hgt
  · by_cases h0 : P = 0
    · exact .inl h0
    · exact .inr (.inl ⟨h0, hlt⟩)
  · exact .inr (.inr (.inl heq))
  · obtain ⟨m, rfl⟩ := Nat.exists_eq_add_of_lt hgt
    have := infinityBits_add f
    exact .inr (.inr (.inr ⟨m + 1, by omega, by omega, rfl⟩))

/-- Every frame of a format: a zero, a finite number, an infinity or a NaN. -/
theorem frame_cases (f : Format) {bs : BitString} (h : bs.length = (fs f).totalBits) :
    ∃ s, bs = frameBits f s 0 ∨ (∃ P, P ≠ 0 ∧ P < infinityBits f ∧ bs = frameBits f s P) ∨
      bs = frameBits f s (infinityBits f) ∨
      ∃ m, m ≠ 0 ∧ m < 2 ^ (fs f).mantissaBits ∧ bs = frameBits f s (infinityBits f + m) := by
  obtain ⟨s, P, hP, rfl⟩ := exists_sign_magnitude f h
  refine ⟨s, ?_⟩
  rcases magnitudeBits_cases f hP with rfl | ⟨h0, hlt⟩ | rfl | ⟨m, h0, hm, rfl⟩
  · exact .inl rfl
  · exact .inr (.inl ⟨P, h0, hlt, rfl⟩)
  · exact .inr (.inr (.inl rfl))
  · exact .inr (.inr (.inr ⟨m, h0, hm, rfl⟩))

/-- R124: the frame of each kind of value. -/
theorem frameOf_zeroBits (f : Format) (s : Symbol) : frameOf f (.zero s) = frameBits f s 0 := by
  rw [frameOf, patternOf_zero, frameBits, Nat.add_zero]

theorem frameOf_infinityBits (f : Format) (s : Symbol) :
    frameOf f (.inf s) = frameBits f s (infinityBits f) := by
  rw [frameOf, patternOf_inf, frameBits, infinityBits]

theorem frameOf_finiteBits (f : Format) (s : Symbol) {P : Nat} (h0 : P ≠ 0)
    (hP : P < infinityBits f) :
    frameOf f (.fin (signed s (magnitudeIn f P))) = frameBits f s P := by
  rw [frameOf, magnitudeIn, patternOf_magnitudeOf f s h0 hP, frameBits]

theorem frameOf_fin (f : Format) {q : ℚ} (hq : q ≠ 0) :
    ∃ P, P ≤ infinityBits f ∧ frameOf f (.fin q) = frameBits f (decide (q < 0)) P := by
  obtain ⟨P, hP, hpat⟩ := patternOf_fin f hq
  exact ⟨P, hP, by rw [frameOf, hpat, frameBits]⟩

theorem frameOf_nanBits (f : Format) : ∃ s m, m ≠ 0 ∧ m < 2 ^ (fs f).mantissaBits ∧
    frameOf f .nan = frameBits f s (infinityBits f + m) := by
  obtain ⟨s, m, h0, hm, hpat⟩ := patternOf_nan f
  exact ⟨s, m, h0.ne', hm, by rw [frameOf, hpat, frameBits, infinityBits]⟩

/-- A frame that decodes to no NaN is the frame of the value it decodes to. -/
theorem frameOf_decodeValue (f : Format) {bs : BitString} (h : bs.length = (fs f).totalBits)
    (hnan : decodeValue bs (fs f) ≠ .nan) : frameOf f (decodeValue bs (fs f)) = bs := by
  obtain ⟨s, rfl | ⟨P, h0, hP, rfl⟩ | rfl | ⟨m, h0, hm, rfl⟩⟩ := frame_cases f h
  · rw [decodeValue_zeroBits, frameOf_zeroBits]
  · rw [decodeValue_finiteBits f s h0 hP, frameOf_finiteBits f s h0 hP]
  · rw [decodeValue_infinityBits, frameOf_infinityBits]
  · exact absurd (decodeValue_nanBits f s h0 hm) hnan

/-- Settles O42: DECODE delivers the frame's value, whose frame it is (`frameOf_decodeValue`). -/
theorem decodeThenEncodeKeepsTheFrame : Obligations.DecodeThenEncodeKeepsTheFrame := by
  intro f bs hbs
  refine ⟨⟨decodeValue bs (fs f), fun st => ⟨exec_decodeOf_of_length f hbs st, fun hnan => ?_⟩⟩,
    fun bs' hbs' hnan heq => ?_⟩
  · rw [exec_encodeOf, frameOf_decodeValue f hbs hnan]
  · rw [← frameOf_decodeValue f hbs hnan, heq, frameOf_decodeValue f hbs' (heq ▸ hnan)]

/-- The frame of a value that has a sign, by that sign. -/
theorem frameOf_signed (f : Format) {v : Val} (hwf : v.wf = true) {s : Symbol}
    (h : v = .zero s ∨ v = .inf s ∨ ∃ q, v = .fin q ∧ s = decide (q < 0)) :
    ∃ P, P ≤ infinityBits f ∧ frameOf f v = frameBits f s P := by
  obtain rfl | rfl | ⟨q, rfl, rfl⟩ := h
  · exact ⟨0, Nat.zero_le _, frameOf_zeroBits f s⟩
  · exact ⟨_, le_rfl, frameOf_infinityBits f s⟩
  · exact frameOf_fin f (of_decide_eq_true hwf)

/-- Settles O33: a frame up to the infinity begins with its sign (`frameBits_head`). -/
theorem encodeKeepsTheSign : Obligations.EncodeKeepsTheSign := by
  intro f v s hwf hsign
  obtain ⟨P, hP, hframe⟩ := frameOf_signed f hwf hsign
  exact ⟨_, _, hframe ▸ frameBits_head f s hP, exec_encodeOf f v⟩

/-- Only NaN has a frame that decodes to NaN. -/
theorem eq_nan_of_decodes_nan (f : Format) {v : Val} (hwf : v.wf = true)
    (h : decodeValue (frameOf f v) (fs f) = .nan) : v = .nan := by
  by_contra hv
  have hsign : ∃ s, v = .zero s ∨ v = .inf s ∨ ∃ q, v = .fin q ∧ s = decide (q < 0) := by
    cases v with
    | zero s => exact ⟨s, .inl rfl⟩
    | inf s => exact ⟨s, .inr (.inl rfl)⟩
    | fin q => exact ⟨_, .inr (.inr ⟨q, rfl, rfl⟩)⟩
    | nan => exact absurd rfl hv
  obtain ⟨s, hs⟩ := hsign
  obtain ⟨P, hP, hframe⟩ := frameOf_signed f hwf hs
  rw [hframe, decodeValue_frameBits f s hP] at h
  split_ifs at h

/-- The frame of a value is the frame of the value it decodes to, for NaN as well. -/
theorem frameOf_idempotent (f : Format) {v : Val} (hwf : v.wf = true) :
    frameOf f (decodeValue (frameOf f v) (fs f)) = frameOf f v := by
  by_cases hnan : decodeValue (frameOf f v) (fs f) = .nan
  · rw [hnan, eq_nan_of_decodes_nan f hwf hnan]
  · exact frameOf_decodeValue f (frameOf_length f v) hnan

/-- Settles O35 by `frameOf_idempotent`. -/
theorem encodeIsIdempotent : Obligations.EncodeIsIdempotent := by
  refine fun f v hwf => ⟨_, _, fun st => ⟨exec_encodeOf f v st, ?_⟩⟩
  rw [exec_encodeOf, frameOf_idempotent f hwf]

/-- The symbols of a frame at or above the infinity: exponent symbols 1, then the mantissa's. -/
theorem frameBits_ones (f : Format) (s : Symbol) {m : Nat} (hm : m < 2 ^ (fs f).mantissaBits) :
    frameBits f s (infinityBits f + m) =
      s :: (List.replicate (fs f).exponentBits true ++ serialize m (fs f).mantissaBits) := by
  have hlt : infinityBits f + m < 2 ^ ((fs f).exponentBits + (fs f).mantissaBits) := by
    have := infinityBits_add f; omega
  have hsign : serialize s.toNat 1 = [s] := by cases s <;> rfl
  rw [frameBits, fs_totalBits, Nat.add_assoc, serialize_append _ _ hlt, infinityBits,
    serialize_append _ _ hm, hsign, serialize_ones, List.singleton_append]

/-- Settles O26: the frame of NaN is a constant, with exponent symbols 1 and a mantissa that is not
0. -/
theorem nanEncodesToOneNan : Obligations.NanEncodesToOneNan := by
  intro f
  obtain ⟨s, m, h0, hm, hframe⟩ := frameOf_nanBits f
  have hone : true ∈ serialize m (fs f).mantissaBits := by
    by_contra h
    rw [← uint_eq_zero, uint_serialize_mod, Nat.mod_eq_of_lt hm] at h
    exact h0 h
  refine ⟨s, _, serialize_length m _, hone, fun st => ?_⟩
  rw [exec_encodeOf, hframe, decodeValue_nanBits f s h0 hm, frameBits_ones f s hm]

/-- The number that a frame below the infinity stands for. -/
theorem decodeValue_number (f : Format) (s : Symbol) {P : Nat} (hP : P < infinityBits f) :
    (decodeValue (frameBits f s P) (fs f)).number = some (signed s (magnitudeIn f P)) := by
  rw [decodeValue_frameBits f s hP.le, if_neg hP.ne]
  split_ifs with h0
  · rw [h0, magnitudeIn_zero, Val.number]
    cases s <;> rfl
  · rfl

/-- A frame that stands for a number lies below the infinity. -/
theorem exists_of_number (f : Format) {bs : BitString} (h : bs.length = (fs f).totalBits) {r : ℚ}
    (hr : (decodeValue bs (fs f)).number = some r) :
    ∃ s P, P < infinityBits f ∧ r = signed s (magnitudeIn f P) := by
  obtain ⟨s, rfl | ⟨P, h0, hP, rfl⟩ | rfl | ⟨m, h0, hm, rfl⟩⟩ := frame_cases f h
  · rw [decodeValue_number f s (infinityBits_pos f)] at hr
    exact ⟨s, 0, infinityBits_pos f, (Option.some.inj hr).symm⟩
  · rw [decodeValue_number f s hP] at hr
    exact ⟨s, P, hP, (Option.some.inj hr).symm⟩
  · rw [decodeValue_infinityBits] at hr; cases hr
  · rw [decodeValue_nanBits f s h0 hm] at hr; cases hr

end Sys2Proof.Machine
end

section
/-! The numbers of a format: their range, and the integers among them (`30_encoding.md` section 5,
`42_int_to_fp_encoder.md` section 6), with the serialiser they are written by
(`43_bit_serializer.md`). -/

namespace Sys2Proof.Machine

/-- Settles O15: `uint_serialize_mod` below `2^W`, and `serialize_uint`. -/
theorem serializeAndUintAreInverse : Obligations.SerializeAndUintAreInverse :=
  ⟨fun P W hP => by rw [uint_serialize_mod, Nat.mod_eq_of_lt hP], serialize_uint⟩

/-- R24: bfloat is single with 16 fewer mantissa bits. -/
theorem magnitudeIn_bfloat (P : Nat) : magnitudeIn .bfloat P = magnitudeIn .single (P * 2 ^ 16) :=
  magnitudeOf_bfloat P

/-- A number of a format has at most 24 significant bits, the last worth `2^-149` to `2^104`. -/
theorem magnitudeIn_significand (f : Format) {P : Nat} (h0 : P ≠ 0) (hP : P < infinityBits f) :
    ∃ (n : ℕ) (j : ℤ), 0 < n ∧ n < 2 ^ 24 ∧ -149 ≤ j ∧ j ≤ 104 ∧
      magnitudeIn f P = n * (2 : ℚ) ^ j := by
  cases f with
  | bfloat =>
    obtain ⟨k, n, hPk, hn, hk, hmag⟩ := magnitudeOf_eq 23 127 (P * 2 ^ 16)
    change P < 255 * 2 ^ 7 at hP
    exact ⟨n, _, by omega, hn, by omega, by omega, (magnitudeIn_bfloat P).trans hmag⟩
  | half =>
    obtain ⟨k, n, hPk, hn, hk, hmag⟩ := magnitudeOf_eq 10 15 P
    change P < 31 * 2 ^ 10 at hP
    exact ⟨n, _, by omega, by omega, by omega, by omega, hmag⟩
  | single =>
    obtain ⟨k, n, hPk, hn, hk, hmag⟩ := magnitudeOf_eq 23 127 P
    change P < 255 * 2 ^ 23 at hP
    exact ⟨n, _, by omega, hn, by omega, by omega, hmag⟩

/-- A number of at most 24 significant bits, the last worth `2^-149` to `2^104`, lies in
`[2^-149, 2^128)`. -/
theorem significand_bounds {n : ℕ} {j : ℤ} (hn0 : 0 < n) (hn : n < 2 ^ 24) (hlo : -149 ≤ j)
    (hhi : j ≤ 104) :
    (2 : ℚ) ^ (-149 : ℤ) ≤ n * (2 : ℚ) ^ j ∧ (n : ℚ) * (2 : ℚ) ^ j < 2 ^ 128 := by
  have hn1 : (1 : ℚ) ≤ n := by exact_mod_cast hn0
  have hn2 : (n : ℚ) < 2 ^ 24 := by exact_mod_cast hn
  constructor
  · calc (2 : ℚ) ^ (-149 : ℤ) ≤ 2 ^ j := zpow_le_zpow_right₀ (by norm_num) hlo
      _ ≤ n * 2 ^ j := le_mul_of_one_le_left (by positivity) hn1
  · calc (n : ℚ) * 2 ^ j ≤ n * 2 ^ (104 : ℤ) := by gcongr; norm_num
      _ < 2 ^ 24 * 2 ^ (104 : ℤ) := by gcongr
      _ = 2 ^ 128 := by norm_num

/-- Settles O13: the zeros, infinities and NaNs are on the carrier, and a finite value has few enough
significant bits (`magnitudeIn_significand`). -/
theorem decodedValuesFitTheCarrier : Obligations.DecodedValuesFitTheCarrier := by
  intro f bs hbs
  refine ⟨valueOfFields_wf .., ?_⟩
  obtain ⟨s, rfl | ⟨P, h0, hP, rfl⟩ | rfl | ⟨m, h0, hm, rfl⟩⟩ := frame_cases f hbs
  · rw [decodeValue_zeroBits]
    exact ⟨rfl, fun q hq => by cases hq⟩
  · obtain ⟨n, j, hn0, hn, hlo, hhi, hmag⟩ := magnitudeIn_significand f h0 hP
    have habs : |signed s (magnitudeIn f P)| = n * (2 : ℚ) ^ j := by
      rw [abs_signed, abs_of_nonneg (magnitudeIn_nonneg f P), hmag]
    rw [decodeValue_finiteBits f s h0 hP]
    refine ⟨onCarrier_fin hn0 (by omega) (by omega) (by omega) habs, fun q hq => ?_⟩
    rw [← Val.fin.inj hq, habs]
    exact significand_bounds hn0 hn hlo hhi
  · rw [decodeValue_infinityBits]
    exact ⟨rfl, fun q hq => by cases hq⟩
  · rw [decodeValue_nanBits f s h0 hm]
    exact ⟨rfl, fun q hq => by cases hq⟩

/-- Every positive integer of at most `M + 1` bits, and `2^(M+1)`, is a number of the format. -/
theorem natCast_eq_magnitudeIn (f : Format) {n : Nat} (h0 : n ≠ 0)
    (hn : n ≤ 2 ^ ((fs f).mantissaBits + 1)) :
    ∃ P, P ≠ 0 ∧ P < infinityBits f ∧ (n : ℚ) = magnitudeIn f P := by
  obtain ⟨e, he, hlow, hhigh⟩ : ∃ e, e ≤ (fs f).mantissaBits ∧ 2 ^ e ≤ n ∧ n ≤ 2 ^ (e + 1) := by
    rcases le_total (Nat.log2 n) (fs f).mantissaBits with h | h
    · exact ⟨_, h, Nat.log2_self_le h0, Nat.lt_log2_self.le⟩
    · exact ⟨_, le_rfl, (Nat.pow_le_pow_right (by norm_num) h).trans (Nat.log2_self_le h0), hn⟩
  obtain ⟨d, hd⟩ := Nat.exists_eq_add_of_le he
  have hbias : 0 < (fs f).bias ∧
      (fs f).mantissaBits + (fs f).bias + 1 < 2 ^ (fs f).exponentBits - 1 := by
    cases f <;> decide
  have hnlow : 2 ^ (fs f).mantissaBits ≤ n * 2 ^ d := by
    rw [hd, pow_add]; gcongr
  have hnhigh : n * 2 ^ d ≤ 2 ^ ((fs f).mantissaBits + 1) := by
    rw [hd, Nat.add_right_comm, pow_add]; gcongr
  have hpos : 0 < 2 ^ (fs f).mantissaBits := by positivity
  refine ⟨(e + (fs f).bias - 1) * 2 ^ (fs f).mantissaBits + n * 2 ^ d, by omega, ?_, ?_⟩
  · calc (e + (fs f).bias - 1) * 2 ^ (fs f).mantissaBits + n * 2 ^ d
        ≤ (e + (fs f).bias - 1) * 2 ^ (fs f).mantissaBits + 2 ^ ((fs f).mantissaBits + 1) := by gcongr
      _ = (e + (fs f).bias - 1 + 2) * 2 ^ (fs f).mantissaBits := by ring
      _ < infinityBits f := Nat.mul_lt_mul_of_pos_right (by omega) hpos
  · have hexp : ((e + (fs f).bias - 1 : ℕ) : ℤ) + 1 - (fs f).bias - (fs f).mantissaBits = -(d : ℤ) := by
      omega
    rw [magnitudeIn, magnitudeOf_grid hnhigh (.inr hnlow), hexp, zpow_neg, zpow_natCast, Nat.cast_mul,
      Nat.cast_pow, Nat.cast_ofNat, mul_inv_cancel_right₀ (by positivity)]

/-- A small integer is delivered back unchanged. -/
theorem exec_encode_intCast (f : Format) {n : ℤ} (h0 : n ≠ 0)
    (hn : |n| ≤ 2 ^ ((fs f).mantissaBits + 1)) (st : State) :
    ∃ bs, exec (.encodeOf (some f) (.fin n)) st = .next (st.deliver (.okEncode bs (.fin n))) := by
  obtain ⟨P, hP0, hP, hmag⟩ :=
    natCast_eq_magnitudeIn f (n := n.natAbs) (by omega) (by zify; exact hn)
  have hq : (n : ℚ) = signed (signOf n) (magnitudeIn f P) := by
    rw [← hmag, Nat.cast_natAbs, Int.cast_abs, ← magnitude_eq_abs, signed_signOf_magnitude]
  refine ⟨frameOf f (.fin n), ?_⟩
  rw [exec_encodeOf, hq, frameOf_finiteBits f _ hP0 hP, decodeValue_finiteBits f _ hP0 hP]

/-- Settles O36: `exec_encode_intCast` at each of the three mantissa widths. -/
theorem smallIntegersEncodeExactly : Obligations.SmallIntegersEncodeExactly :=
  fun _ st h0 => ⟨fun h => exec_encode_intCast .half h0 h st,
    fun h => exec_encode_intCast .bfloat h0 h st, fun h => exec_encode_intCast .single h0 h st⟩

end Sys2Proof.Machine
end

section
/-! Narrowing a single pattern to bfloat (`41_rounding_unit.md` section 4, R107 to R110). -/

namespace Sys2Proof.Machine

/-- A pattern of `k + 1` bits is a sign and magnitude bits. -/
theorem exists_sign_bits {k : Nat} (p : BitVec (k + 1)) :
    ∃ (s : Symbol) (P : Nat), P < 2 ^ k ∧ p.toNat = s.toNat * 2 ^ k + P := by
  have hlt : p.toNat < 2 * 2 ^ k := pow_succ' 2 k ▸ p.isLt
  refine ⟨decide (2 ^ k ≤ p.toNat), p.toNat % 2 ^ k, Nat.mod_lt _ (by positivity), ?_⟩
  rw [toNat_topBit hlt, Nat.mul_comm, Nat.div_add_mod]

/-- R107: a lower half under `0x8000`, or `0x8000` under an even upper half, is dropped. -/
theorem narrow16_down {p : BitVec 32} {u l : Nat} (hp : p.toNat = u * 2 ^ 16 + l)
    (h : l < 2 ^ 15 ∨ (l = 2 ^ 15 ∧ u % 2 = 0)) : (narrow16 p).toNat = u := by
  have hlt := p.isLt
  have hu : p.toNat / 2 ^ 16 = u := by omega
  have hl : p.toNat % 2 ^ 16 = l := by omega
  rw [narrow16_toNat, hu, hl, if_neg (by omega)]
  omega

/-- R107: a lower half over `0x8000`, or `0x8000` under an odd upper half, adds one to the upper half,
kept to 16 bits. -/
theorem narrow16_up {p : BitVec 32} {u l : Nat} (hp : p.toNat = u * 2 ^ 16 + l) (hl : l < 2 ^ 16)
    (h : 2 ^ 15 < l ∨ (l = 2 ^ 15 ∧ u % 2 = 1)) : (narrow16 p).toNat = (u + 1) % 2 ^ 16 := by
  have hu : p.toNat / 2 ^ 16 = u := by omega
  have hl : p.toNat % 2 ^ 16 = l := by omega
  rw [narrow16_toNat, hu, hl, if_pos h]

/-- The lower half is dropped or rounds the upper half up. -/
theorem drops_or_roundsUp (u l : Nat) : (l < 2 ^ 15 ∨ (l = 2 ^ 15 ∧ u % 2 = 0)) ∨
    (2 ^ 15 < l ∨ (l = 2 ^ 15 ∧ u % 2 = 1)) := by omega

/-- Settles O19: the upper half of a NaN is `0x7F80 + h` below the sign, kept or increased by one; only
the largest `h` carries into the sign. -/
theorem narrowingOfNanPatterns : Obligations.NarrowingOfNanPatterns := by
  intro s h l hh hl hnan
  have hs := Bool.toNat_le s
  have hhalves : (BitVec.ofNat 32 (s.toNat * 2 ^ 31 + 255 * 2 ^ 23 + h * 2 ^ 16 + l)).toNat =
      (s.toNat * 2 ^ 15 + 255 * 2 ^ 7 + h) * 2 ^ 16 + l := by
    rw [BitVec.toNat_ofNat, Nat.mod_eq_of_lt (by omega)]; ring
  have hcarry : (if s then 0x0000 else 0x8000) = (1 - s.toNat) * 2 ^ 15 := by cases s <;> rfl
  dsimp only
  rw [hcarry]
  rcases drops_or_roundsUp (s.toNat * 2 ^ 15 + 255 * 2 ^ 7 + h) l with hdir | hdir
  · rw [narrow16_down hhalves hdir]; omega
  · rw [narrow16_up hhalves hl hdir]; omega

/-- R109: an odd upper half is kept under `0x8000` and increased by one from there up. -/
theorem narrow16_of_odd {u l : Nat} (hodd : u % 2 = 1) (hu : u < 2 ^ 16 - 1) (hl : l < 2 ^ 16) :
    (narrow16 (BitVec.ofNat 32 (u * 2 ^ 16 + l))).toNat = if l < 0x8000 then u else u + 1 := by
  have hhalves : (BitVec.ofNat 32 (u * 2 ^ 16 + l)).toNat = u * 2 ^ 16 + l := by
    rw [BitVec.toNat_ofNat, Nat.mod_eq_of_lt (by omega)]
  split_ifs with h
  · exact narrow16_down hhalves (.inl h)
  · rw [narrow16_up hhalves hl (by omega)]; omega

/-- Settles O20: `narrow16_of_odd` at the upper halves `0x7F7F` and `0xFF7F`. -/
theorem narrowingCarriesIntoInfinity : Obligations.NarrowingCarriesIntoInfinity := by
  intro l hl
  have hpos := narrow16_of_odd (u := 0x7F7F) (by norm_num) (by norm_num) hl
  have hneg := narrow16_of_odd (u := 0xFF7F) (by norm_num) (by norm_num) hl
  constructor <;> apply BitVec.eq_of_toNat_eq
  · rw [apply_ite BitVec.toNat]; exact hpos
  · rw [apply_ite BitVec.toNat]; exact hneg

/-- R108: below the infinity and at it, narrowing rounds the magnitude bits in whole numbers. -/
theorem narrow16_eq_rneInt {p : BitVec 32} {s : Symbol} {P : Nat}
    (hp : p.toNat = s.toNat * 2 ^ 31 + P) (hP : P ≤ 255 * 2 ^ 23) :
    (narrow16 p).toNat = s.toNat * 2 ^ 15 + rneInt ((P : ℚ) / (2 ^ 16 : ℕ)) ∧
      rneInt ((P : ℚ) / (2 ^ 16 : ℕ)) ≤ 255 * 2 ^ 7 := by
  have hs := Bool.toNat_le s
  rw [narrow16_toNat, hp, show (2 ^ 16 : ℕ) = 2 * 2 ^ 15 from rfl, rneInt_div P (2 ^ 15) (by norm_num)]
  constructor <;> split_ifs <;> omega

/-- R108: narrowing rounds a finite single magnitude onto the bfloat grid. -/
theorem narrow16_eq_roundToFormat {p : BitVec 32} {s : Symbol} {P : Nat}
    (hp : p.toNat = s.toNat * 2 ^ 31 + P) (h0 : P ≠ 0) (hP : P < infinityBits .single) :
    (narrow16 p).toNat = roundToFormat s (magnitudeIn .single P) 8 7 := by
  obtain ⟨hnarrow, hle⟩ := narrow16_eq_rneInt hp hP.le
  have hdrop := roundToFormat_drop (E := 8) (M := 7) (d := 16) (bias := 127) s rfl (by norm_num) h0
  rw [min_eq_left (show _ ≤ (2 ^ 8 - 1) * 2 ^ 7 from hle)] at hdrop
  exact hnarrow.trans hdrop.symm

/-- Settles O21: by the four kinds of single pattern; zeros and infinities have a lower half of 0, and
a finite number is `narrow16_eq_roundToFormat`. -/
theorem narrowingRoundsOntoTheBfloatGrid : Obligations.NarrowingRoundsOntoTheBfloatGrid := by
  intro P32
  obtain ⟨s, P, hlt, hP32⟩ := exists_sign_bits P32
  rw [show serialize P32.toNat 32 = frameBits .single s P by rw [hP32]; rfl]
  rcases magnitudeBits_cases .single hlt with rfl | ⟨h0, hP⟩ | rfl | ⟨m, h0, hm, rfl⟩
  · rw [decodeValue_zeroBits]
    exact narrow16_down (u := s.toNat * 2 ^ 15) (l := 0) (by rw [hP32]; ring) (by norm_num)
  · rw [decodeValue_finiteBits .single s h0 hP]
    have hpos := magnitudeIn_pos .single h0
    dsimp only
    rw [← magnitude_eq_abs, magnitude_signed s hpos, ← signOf, signOf_signed s hpos]
    exact narrow16_eq_roundToFormat hP32 h0 hP
  · rw [decodeValue_infinityBits]
    have hinf : infinityBits .single = 0x7F80 * 2 ^ 16 := rfl
    exact narrow16_down (u := s.toNat * 2 ^ 15 + 0x7F80) (l := 0) (by rw [hP32, hinf]; ring)
      (by norm_num)
  · rw [decodeValue_nanBits .single s h0 hm]
    trivial

end Sys2Proof.Machine
end

section
/-! ENCODE of a finite number: the nearest frame, and the thresholds of overflow and underflow
(`41_rounding_unit.md` section 3, `42_int_to_fp_encoder.md` sections 2 and 3). -/

namespace Sys2Proof.Machine

/-- R105: half a unit in the last place beyond the largest finite number of a format. -/
def overflowThreshold (f : Format) : ℚ :=
  2 ^ ((fs f).bias : ℤ) * (2 - 2 ^ (-((fs f).mantissaBits : ℤ) - 1))

/-- R106: half the smallest subnormal of a format. -/
def underflowThreshold (f : Format) : ℚ := 2 ^ (-((fs f).bias : ℤ) - (fs f).mantissaBits)

/-- R103 to R106: `P` is what a magnitude `a` rounds to in a format. -/
structure RoundsTo (f : Format) (a : ℚ) (P : Nat) : Prop where
  le_infinity : P ≤ infinityBits f
  overflow : P = infinityBits f ↔ overflowThreshold f ≤ a
  underflow : P = 0 ↔ a ≤ underflowThreshold f
  nearest : P < infinityBits f → ∀ Q, Q = P ∨
    |a - magnitudeIn f P| < |a - magnitudeIn f Q| ∨
    (|a - magnitudeIn f P| = |a - magnitudeIn f Q| ∧ Even P)

/-- The pattern of R103 is the sign and what the magnitude rounds to. -/
theorem exists_roundsTo (f : Format) {a : ℚ} (ha : 0 < a) (s : Symbol) : ∃ P, RoundsTo f a P ∧
    roundToFormat s a (fs f).exponentBits (fs f).mantissaBits =
      s.toNat * 2 ^ ((fs f).exponentBits + (fs f).mantissaBits) + P := by
  have hover := overflow_iff ha s (M := (fs f).mantissaBits) (fs_bias f) (fs_exp_two f)
  have hunder := underflow_iff ha s (M := (fs f).mantissaBits) (fs_bias f) (fs_exp_two f)
  obtain ⟨k, n, hn, hn2, hk, hge, -, hr⟩ :=
    roundToFormat_spec ha s (M := (fs f).mantissaBits) (fs_bias f)
  have hle := min_le_right (k * 2 ^ (fs f).mantissaBits + n) (infinityBits f)
  rw [hr, Nat.add_le_add_iff_left] at hover
  rw [hr, Nat.add_eq_left] at hunder
  refine ⟨_, ⟨hle, ⟨fun h => hover.mp h.ge, fun h => hle.antisymm (hover.mpr h)⟩, hunder,
    fun hlt Q => ?_⟩, hr⟩
  have hP : min (k * 2 ^ (fs f).mantissaBits + n) (infinityBits f) = k * 2 ^ (fs f).mantissaBits + n :=
    min_eq_left (by omega)
  have hmag : magnitudeIn f (k * 2 ^ (fs f).mantissaBits + n) = _ := magnitudeOf_grid hn2 hk
  have heven : Even n → Even (k * 2 ^ (fs f).mantissaBits + n) := fun h =>
    (((even_two.pow_of_ne_zero (by cases f <;> decide)).mul_left k)).add h
  rw [hP, ← (magnitudeIn_strictMono f).injective.eq_iff, hmag]
  exact (nearest_mag hn ha hge Q).imp_right (Or.imp_right (And.imp_right heven))

/-- R121, R122: half and single round once. -/
theorem frameOf_fin_roundsTo {f : Format} (hf : f ≠ .bfloat) {q : ℚ} (hq : q ≠ 0) :
    ∃ P, RoundsTo f |q| P ∧ frameOf f (.fin q) = frameBits f (decide (q < 0)) P := by
  obtain ⟨P, hround, hpat⟩ := exists_roundsTo f (abs_pos.mpr hq) (signOf q)
  refine ⟨P, hround, ?_⟩
  rw [frameBits, ← signOf, ← hpat, ← magnitude_eq_abs]
  cases f with
  | half => rfl
  | single => rfl
  | bfloat => exact absurd rfl hf

/-- The distance between two numbers of the same sign, and of different signs. -/
theorem abs_signed_sub_signed (s : Symbol) (a b : ℚ) : |signed s a - signed s b| = |a - b| := by
  cases s
  · rfl
  · rw [signed, signed, if_pos rfl, if_pos rfl, neg_sub_neg, abs_sub_comm]

theorem abs_signed_sub_signed_of_ne {s t : Symbol} (h : t ≠ s) {a b : ℚ} (ha : 0 ≤ a) (hb : 0 ≤ b) :
    |signed s a - signed t b| = a + b := by
  have hsum := abs_of_nonneg (add_nonneg ha hb)
  match s, t, h with
  | false, true, _ => simpa [signed] using hsum
  | true, false, _ => rw [← hsum, ← abs_neg]; congr 1; simp [signed]; ring

/-- Zero is no nearer to a magnitude than what it rounds to. -/
theorem RoundsTo.nearest_zero {f : Format} {a : ℚ} {P : Nat} (h : RoundsTo f a P) (ha : 0 < a)
    (hP : P < infinityBits f) :
    |a - magnitudeIn f P| < a ∨ (|a - magnitudeIn f P| = a ∧ Even P) := by
  have hzero : |a - magnitudeIn f 0| = a := by rw [magnitudeIn_zero, sub_zero, abs_of_pos ha]
  rcases h.nearest hP 0 with rfl | hlt | ⟨heq, he⟩
  · exact .inr ⟨hzero, Even.zero⟩
  · exact .inl (hlt.trans_eq hzero)
  · exact .inr ⟨heq.trans hzero, he⟩

/-- A magnitude rounded below the infinity is the nearest number of the format, on either side of
zero. -/
theorem nearestEven_frameBits {f : Format} {a : ℚ} {P : Nat} (ha : 0 < a) (h : RoundsTo f a P)
    (hP : P < infinityBits f) (s : Symbol) : NearestEven (fs f) (signed s a) (frameBits f s P) := by
  refine ⟨_, decodeValue_number f s hP, fun bs' r' hlen hr' hne => ?_⟩
  obtain ⟨t, Q, hQ, rfl⟩ := exists_of_number f hlen hr'
  have hlast : Even P → (frameBits f s P).getLast? = some false := fun he => by
    rw [frameBits_last, Nat.testBit_zero, Nat.even_iff.mp he]; rfl
  rw [abs_signed_sub_signed]
  by_cases hts : t = s
  · subst hts
    rw [abs_signed_sub_signed]
    rcases h.nearest hP Q with rfl | hlt | ⟨heq, he⟩
    · exact absurd rfl hne
    · exact .inl hlt
    · exact .inr ⟨heq, hlast he⟩
  · have hQ0 := magnitudeIn_nonneg f Q
    rw [abs_signed_sub_signed_of_ne hts ha.le hQ0]
    rcases h.nearest_zero ha hP with hlt | ⟨heq, he⟩
    · exact .inl (by linarith)
    · rcases hQ0.eq_or_lt with hz | hpos
      · exact .inr ⟨by linarith, hlast he⟩
      · exact .inl (by linarith)

/-- R17: ENCODE in half and single delivers the nearest frame, below the overflow threshold. -/
theorem exec_encode_nearest {f : Format} (hf : f ≠ .bfloat) {q : ℚ} (hq : q ≠ 0)
    (hlt : |q| < overflowThreshold f) (st : State) :
    ∃ bs, bs.length = (fs f).totalBits ∧ bs.head? = some (decide (q < 0)) ∧
      NearestEven (fs f) q bs ∧ exec (.encodeOf (some f) (.fin q)) st =
        .next (st.deliver (.okEncode bs (decodeValue bs (fs f)))) := by
  obtain ⟨P, hround, hframe⟩ := frameOf_fin_roundsTo hf hq
  have hP : P < infinityBits f :=
    lt_of_le_of_ne hround.le_infinity fun h => absurd (hround.overflow.mp h) (not_le.mpr hlt)
  have hq' : signed (decide (q < 0)) |q| = q := by
    rw [← magnitude_eq_abs]; exact signed_signOf_magnitude q
  have hnear := nearestEven_frameBits (abs_pos.mpr hq) hround hP (decide (q < 0))
  rw [hq'] at hnear
  exact ⟨_, frameBits_length .., frameBits_head f _ hP.le, hnear,
    hframe ▸ exec_encodeOf f (.fin q) st⟩

/-- R105: the thresholds as the spec writes them. -/
theorem overflowThreshold_half : overflowThreshold .half = 65520 := by
  norm_num [overflowThreshold, fs]

theorem overflowThreshold_single : overflowThreshold .single = 2 ^ 128 - 2 ^ 103 := by
  norm_num [overflowThreshold, fs]

/-- Settles O27: `exec_encode_nearest` at half. -/
theorem halfEncodesTheNearest : Obligations.HalfEncodesTheNearest :=
  fun _ st hq hlt => exec_encode_nearest (f := .half) (by decide) hq (overflowThreshold_half ▸ hlt) st

/-- Settles O28: `exec_encode_nearest` at single. -/
theorem singleEncodesTheNearest : Obligations.SingleEncodesTheNearest :=
  fun _ st hq hlt =>
    exec_encode_nearest (f := .single) (by decide) hq (overflowThreshold_single ▸ hlt) st

/-- What a finite number's frame decodes to is the infinity of its sign exactly for the infinity's
magnitude bits. -/
theorem decodeValue_eq_inf_iff (f : Format) (s : Symbol) {P : Nat} (hP : P ≤ infinityBits f) :
    decodeValue (frameBits f s P) (fs f) = .inf s ↔ P = infinityBits f := by
  rw [decodeValue_frameBits f s hP]
  split_ifs with h <;> simp [h]

/-- R105: a finite number overflows exactly at the threshold, and is at most the largest finite number
below it. -/
theorem exec_encode_overflow {f : Format} (hf : f ≠ .bfloat) {q : ℚ} (hq : q ≠ 0) (st : State) :
    ∃ bs d, exec (.encodeOf (some f) (.fin q)) st = .next (st.deliver (.okEncode bs d)) ∧
      (d = .inf (decide (q < 0)) ↔ overflowThreshold f ≤ |q|) ∧
      (|q| < overflowThreshold f →
        ∃ r, d.number = some r ∧ |r| ≤ magnitudeIn f (infinityBits f - 1)) := by
  obtain ⟨P, hround, hframe⟩ := frameOf_fin_roundsTo hf hq
  refine ⟨_, _, hframe ▸ exec_encodeOf f (.fin q) st,
    (decodeValue_eq_inf_iff f _ hround.le_infinity).trans hround.overflow, fun hlt => ?_⟩
  have hP : P < infinityBits f :=
    lt_of_le_of_ne hround.le_infinity fun h => absurd (hround.overflow.mp h) (not_le.mpr hlt)
  refine ⟨_, decodeValue_number f _ hP, ?_⟩
  rw [abs_signed, abs_of_nonneg (magnitudeIn_nonneg f P)]
  exact (magnitudeIn_strictMono f).monotone (by omega)

/-- Settles O31: `exec_encode_overflow` at half and single, with their thresholds and largest finite
numbers. -/
theorem overflowExactlyAtTheThreshold : Obligations.OverflowExactlyAtTheThreshold := by
  have hmaxHalf : magnitudeIn .half (infinityBits .half - 1) = 65504 := by
    norm_num [magnitudeIn, magnitudeOf, infinityBits, fs]
  have hmaxSingle : magnitudeIn .single (infinityBits .single - 1) = 2 ^ 128 - 2 ^ 104 := by
    norm_num [magnitudeIn, magnitudeOf, infinityBits, fs]
  intro q st hq
  have hhalf := exec_encode_overflow (f := .half) (by decide) hq st
  have hsingle := exec_encode_overflow (f := .single) (by decide) hq st
  rw [overflowThreshold_half, hmaxHalf] at hhalf
  rw [overflowThreshold_single, hmaxSingle] at hsingle
  exact ⟨hhalf, hsingle⟩

/-- R106: a finite number becomes the zero of its sign exactly up to the threshold. -/
theorem exec_encode_underflow {f : Format} (hf : f ≠ .bfloat) {q : ℚ} (hq : q ≠ 0) (st : State) :
    ∃ bs d, exec (.encodeOf (some f) (.fin q)) st = .next (st.deliver (.okEncode bs d)) ∧
      (d = .zero (decide (q < 0)) ↔ |q| ≤ underflowThreshold f) := by
  obtain ⟨P, hround, hframe⟩ := frameOf_fin_roundsTo hf hq
  refine ⟨_, _, hframe ▸ exec_encodeOf f (.fin q) st, ?_⟩
  rw [← hround.underflow, frameBits, decodeValue_eq_zero_iff f _ _ hround.le_infinity, and_iff_left rfl]

/-- Settles O32: `exec_encode_underflow` at half and single, with their thresholds. -/
theorem underflowExactlyAtTheThreshold : Obligations.UnderflowExactlyAtTheThreshold := by
  have hthrHalf : underflowThreshold .half = 1 / 2 ^ 25 := by norm_num [underflowThreshold, fs]
  have hthrSingle : underflowThreshold .single = 1 / 2 ^ 150 := by norm_num [underflowThreshold, fs]
  intro q st hq
  have hhalf := exec_encode_underflow (f := .half) (by decide) hq st
  have hsingle := exec_encode_underflow (f := .single) (by decide) hq st
  rw [hthrHalf] at hhalf
  rw [hthrSingle] at hsingle
  exact ⟨hhalf, hsingle⟩

/-- A magnitude that reaches a number of the format rounds to no smaller one. -/
theorem RoundsTo.le_of_magnitude_le {f : Format} {a : ℚ} {P Q : Nat} (h : RoundsTo f a P)
    (hQ : Q ≤ infinityBits f) (ha : magnitudeIn f Q ≤ a) : Q ≤ P := by
  by_contra hlt
  have hmag : magnitudeIn f P < magnitudeIn f Q := magnitudeIn_strictMono f (not_le.mp hlt)
  have hdist : |a - magnitudeIn f Q| < |a - magnitudeIn f P| := by
    rw [abs_of_nonneg (by linarith), abs_of_nonneg (by linarith)]; linarith
  rcases h.nearest (by omega) Q with heq | hnear | ⟨hnear, -⟩
  · omega
  · exact lt_asymm hdist hnear
  · exact hdist.ne' hnear

/-- R105, R126: in half and single a finite number from the threshold up has the frame of the
infinity of its sign. -/
theorem frameOf_fin_of_overflow {f : Format} (hf : f ≠ .bfloat) {q : ℚ} (hq : q ≠ 0)
    (h : overflowThreshold f ≤ |q|) : frameOf f (.fin q) = frameOf f (.inf (decide (q < 0))) := by
  obtain ⟨P, hround, hframe⟩ := frameOf_fin_roundsTo hf hq
  rw [hframe, hround.overflow.mpr h, frameOf_infinityBits]

end Sys2Proof.Machine
end

section
/-! The bfloat path, rounded twice (`42_int_to_fp_encoder.md` R123), and overflow in every format. -/

namespace Sys2Proof.Machine

/-- R123: the single frame is the pattern that is narrowed. -/
theorem frameOf_single (v : Val) :
    frameOf .single v = serialize (BitVec.ofNat 32 (singlePattern v)).toNat 32 :=
  serialize_congr 32 (by rw [BitVec.toNat_ofNat, Nat.mod_mod]; rfl)

theorem frameOf_bfloat (v : Val) :
    frameOf .bfloat v = serialize (narrow16 (BitVec.ofNat 32 (singlePattern v))).toNat 16 := rfl

/-- Settles O29: the pattern is the one that the single frame spells (`frameOf_single`). -/
theorem bfloatNarrowsTheSinglePattern : Obligations.BfloatNarrowsTheSinglePattern := by
  refine fun v => ⟨BitVec.ofNat 32 (singlePattern v), fun st => ⟨?single, ?bfloat⟩⟩
  case single => rw [← frameOf_single]; exact exec_encodeOf .single v st
  case bfloat => rw [← frameOf_bfloat]; exact exec_encodeOf .bfloat v st

/-- Settles O30: the first rounding, to single, drops the `2^-30`, so that the second meets a tie. -/
theorem bfloatRoundsTwice : Obligations.BfloatRoundsTwice := by
  have hsingle : singlePattern (.fin (1 + 1 / 2 ^ 8 + 1 / 2 ^ 30)) = 0x3F808000 := by decide +kernel
  have hnarrow : (narrow16 0x3F808000#32).toNat = 0x3F80 :=
    narrow16_down (l := 0x8000) rfl (by norm_num)
  have hframe : frameOf .bfloat (.fin (1 + 1 / 2 ^ 8 + 1 / 2 ^ 30)) = serialize 0x3F80 16 := by
    rw [frameOf_bfloat, hsingle, hnarrow]
  have hvalue : decodeValue (serialize 0x3F80 16) (fs .bfloat) = .fin 1 := by decide +kernel
  refine ⟨fun st => ?twice, ?once⟩
  case twice => rw [← hvalue, ← hframe]; exact exec_encodeOf .bfloat _ st
  case once => decide +kernel

/-- R105: the bfloat threshold, the single number with magnitude bits `0x7F7F8000`, half way from the
largest finite bfloat to the infinity. -/
theorem overflowThreshold_bfloat : overflowThreshold .bfloat = 2 ^ 127 * (2 - (1 / 2) ^ 8) := by
  norm_num [overflowThreshold, fs]

theorem magnitudeIn_single_threshold : magnitudeIn .single 0x7F7F8000 = overflowThreshold .bfloat := by
  norm_num [overflowThreshold, magnitudeIn, magnitudeOf, fs]

/-- R109: from that number up narrowing gives the infinity. -/
theorem narrow16_of_overflow {p : BitVec 32} {s : Symbol} {P : Nat}
    (hp : p.toNat = s.toNat * 2 ^ 31 + P) (hlow : 0x7F7F8000 ≤ P) (hhigh : P ≤ 0x7F800000) :
    (narrow16 p).toNat = s.toNat * 2 ^ 15 + 0x7F80 := by
  have hs := Bool.toNat_le s
  rcases hhigh.eq_or_lt with rfl | hlt
  · exact narrow16_down (u := s.toNat * 2 ^ 15 + 0x7F80) (l := 0) (by rw [hp]; ring) (by norm_num)
  · obtain ⟨l, rfl⟩ := Nat.exists_eq_add_of_le hlow
    rw [narrow16_up (u := s.toNat * 2 ^ 15 + 0x7F7F) (l := 0x8000 + l) (by rw [hp]; ring) (by omega)
      (by omega)]
    omega

/-- R105, R126: the same in bfloat, by way of the single pattern. -/
theorem frameOf_bfloat_of_overflow {q : ℚ} (hq : q ≠ 0) (h : overflowThreshold .bfloat ≤ |q|) :
    frameOf .bfloat (.fin q) = frameOf .bfloat (.inf (decide (q < 0))) := by
  obtain ⟨P, hround, hpat⟩ := exists_roundsTo .single (abs_pos.mpr hq) (signOf q)
  have hlow : 0x7F7F8000 ≤ P :=
    hround.le_of_magnitude_le (by decide) (magnitudeIn_single_threshold.trans_le h)
  have hsingle : singlePattern (.fin q) = (signOf q).toNat * 2 ^ 31 + P := by
    rw [← magnitude_eq_abs] at hpat; exact hpat
  have hbits : (BitVec.ofNat 32 (singlePattern (.fin q))).toNat = (signOf q).toNat * 2 ^ 31 + P := by
    have hs := Bool.toNat_le (signOf q)
    have hle : P ≤ 0x7F800000 := hround.le_infinity
    rw [hsingle, BitVec.toNat_ofNat, Nat.mod_eq_of_lt (by omega)]
  rw [frameOf_bfloat, narrow16_of_overflow hbits hlow hround.le_infinity, frameOf_infinityBits]
  rfl

theorem overflowThreshold_pos (f : Format) : 0 < overflowThreshold f := by
  cases f with
  | half => rw [overflowThreshold_half]; norm_num
  | bfloat => rw [overflowThreshold_bfloat]; norm_num
  | single => rw [overflowThreshold_single]; norm_num

/-- R105, R126: in every format a finite number from the threshold up has the frame of the infinity of
its sign. -/
theorem frameOf_of_overflow (f : Format) {q : ℚ} (h : overflowThreshold f ≤ |q|) :
    frameOf f (.fin q) = frameOf f (.inf (decide (q < 0))) := by
  have hq : q ≠ 0 := abs_pos.mp ((overflowThreshold_pos f).trans_le h)
  by_cases hf : f = .bfloat
  · subst hf; exact frameOf_bfloat_of_overflow hq h
  · exact frameOf_fin_of_overflow hf hq h

/-- Settles O25: the frame of an infinity has a mantissa of 0, and a number from the threshold up has
the frame of an infinity. -/
theorem infinityEncodesWithItsSign : Obligations.InfinityEncodesWithItsSign := by
  refine fun f st => ⟨fun s => ?infinity, fun q hq => ?finite⟩
  case infinity =>
    have hframe := frameBits_ones f s (m := 0) (by positivity)
    rw [serialize_zero, Nat.add_zero] at hframe
    rw [exec_encodeOf, frameOf_infinityBits, decodeValue_infinityBits, hframe]
  case finite =>
    have hthr : overflowThreshold f ≤ |q| := by
      cases f with
      | half => exact overflowThreshold_half.trans_le hq
      | bfloat => exact overflowThreshold_bfloat.trans_le hq
      | single => exact overflowThreshold_single.trans_le hq
    rw [exec_encodeOf, exec_encodeOf, frameOf_of_overflow f hthr]

end Sys2Proof.Machine
end
